-- ==== Sys2Proof/Word.lean ====
section
/-! DEFINITION. Word.lean: the machine's word types (spec/00_scope.md R9, R11; spec/10_state.md R17). -/

namespace Sys2Proof

/-- A 32-bit register, ALU operand, address or instruction word (R9 row XLEN, R11). -/
abbrev Word := BitVec 32

/-- One memory lane (R14, R40). -/
abbrev Byte := BitVec 8

/-- A 5-bit register index; no index is ever out of range (R17). -/
abbrev RegIdx := BitVec 5

end Sys2Proof
end

