-- ==== Sys2Proof/Machine/Alu.lean ====
section
/-! DEFINITION. Machine/Alu.lean: the thirteen ALU operations and their results (spec/40_alu.md R74 to R90). -/

namespace Sys2Proof.Machine

/-- The thirteen operation tags; the tag has no number a program can see (R74). -/
inductive AluOp where
  | add | sub | and | or | xor | not | sll | srl | sra | slt | sltu | passA | passB
  deriving DecidableEq, Repr

/-- A shift amount is masked to its low 5 bits (R83). -/
def shiftAmount (b : Word) : Nat := (b.extractLsb' 0 5).toNat

/-- A comparison's result is 1 or 0 (R86, R87). -/
def boolWord (p : Bool) : Word := if p then 1#32 else 0#32

/-- The result of each operation (R77 to R89); all arithmetic wraps modulo 2^32 (R90). -/
def aluResult (op : AluOp) (a b : Word) : Word :=
  match op with
  | .add => a + b
  | .sub => a - b
  | .and => a &&& b
  | .or => a ||| b
  | .xor => a ^^^ b
  | .not => ~~~a                                  -- R82: no instruction selects it
  | .sll => a <<< shiftAmount b
  | .srl => a >>> shiftAmount b
  | .sra => a.sshiftRight (shiftAmount b)
  | .slt => boolWord (a.slt b)
  | .sltu => boolWord (a.ult b)
  | .passA => a
  | .passB => b

end Sys2Proof.Machine
end

