-- ==== Sys2Proof/Config.lean ====
section
/-! DEFINITION. Config.lean: what an implementation of the core fixes (the memory size) and the free values the
spec draws from an oracle (spec/00_scope.md R9; spec/92_eei_decisions.md D4, D5, D14). -/

namespace Sys2Proof

/-- The parameter MEM_WORDS: the memory has `words` words, at least one (R9, R38). -/
structure MemSize where
  words : Nat
  pos : 0 < words
  deriving DecidableEq, Repr

/-- The spec's reference value of MEM_WORDS, 1024 words (R38).
DESIGN CHOICE, unsafe only for a claim about `State.reset` alone: log entry 3. -/
def Config.referenceMemSize : MemSize := ⟨1024, by decide⟩

/-- FREE VALUE `draw(misaligned_load_value)`: what the n-th drawing load receives when it is a misaligned LH, LHU
or LW (R42, R118, D4). No body: nothing can be proved of it. Safe: log entry 1. -/
opaque Config.misalignedLoadValue : Nat → Word

/-- FREE VALUE `draw(reserved_load_value)`: what the n-th drawing load receives when its funct3 is 011, 110 or 111
(R124, D5). No body: nothing can be proved of it. Safe: log entry 2. -/
opaque Config.reservedLoadValue : Nat → Word

end Sys2Proof
end

