-- ==== Sys2Proof/Machine/State.lean ====
section
/-! DEFINITION. Machine/State.lean: the state of the core, all of spec/10_state.md R15, as plain data, and its value
after construction (spec/70_reset_and_hazards.md R172, R173). -/

namespace Sys2Proof.Machine

/-- The flag register: zero, carry, negative, overflow (R26). -/
structure Flags where
  z : Bool
  c : Bool
  n : Bool
  v : Bool
  deriving DecidableEq, Repr

/-- The memory array (R38), as (byte cell, byte) pairs: cell `4 * i + k` is lane `k` of word `i` (R40). Only the
cells that differ from what an unlisted cell reads as are listed, in rising order (`Memory.wf`). -/
abbrev Memory := List Host.Cell

/-- Nothing listed: the memory at construction, every word 0 (R46, R172). -/
def Memory.empty : Memory := []

/-- The state that persists from one cycle to the next: the five elements of R15, and the model's own `memSize`
(configuration, log entry 3) and `draws` (the index of the next free value, log entry 1). Register 0 has no storage
(R18): `xregs` holds `x[i]` at `i - 1`. -/
structure State where
  pc : Word
  xregs : Vector Word 31
  mem : Memory
  flags : Flags
  cycleCount : BitVec 64
  memSize : MemSize
  draws : Nat
  deriving DecidableEq, Repr

/-- The core has no fault: it "never raises an exception, never halts and never stops" (R156). Nothing raises one. -/
inductive Fault where
  deriving DecidableEq, Repr

/-- Why an instruction would have no meaning here. -/
inductive Refusal where
  /-- An instruction the model has not reached. No arm of `exec` answers it: every instruction has its meaning.
  Safe: a claim about a refused instruction could only become unprovable. -/
  | notModelled (mnemonic : String)
  deriving DecidableEq, Repr

/-- The state after construction: the state after `reset()` with every memory word 0 (R172, R173), at the reference
memory size (R38; log entry 3). -/
def State.reset : State where
  pc := 0#32
  xregs := Vector.replicate 31 0#32
  mem := Memory.empty
  flags := ⟨false, false, false, false⟩
  cycleCount := 0#64
  memSize := Config.referenceMemSize
  draws := 0

end Sys2Proof.Machine
end

