-- ==== Sys2Proof/Machine/Flags.lean ====
section
/-! DEFINITION. Machine/Flags.lean: the four flags every ALU execution writes (spec/40_alu.md R76 to R78). -/

namespace Sys2Proof.Machine

/-- Carry of Add: the unsigned sum does not fit in 32 bits (R77). -/
def addCarry (a b : Word) : Bool := decide (2 ^ 32 ≤ a.toNat + b.toNat)

/-- Overflow of Add: both operands have one sign and the result the other (R77). -/
def addOverflow (a b : Word) : Bool := a.msb == b.msb && (a + b).msb != a.msb

/-- Carry of Sub: a borrow, `unsigned(a) < unsigned(b)` (R78, D9: log entry 10). -/
def subCarry (a b : Word) : Bool := decide (a.toNat < b.toNat)

/-- Overflow of Sub: the operands' signs differ, and the result's sign differs from `a`'s (R78: log entry 10). -/
def subOverflow (a b : Word) : Bool := a.msb != b.msb && (a - b).msb != a.msb

/-- C: Add and Sub only, 0 for every other operation (R76, D8: log entry 9). -/
def carryOf (op : AluOp) (a b : Word) : Bool :=
  match op with
  | .add => addCarry a b
  | .sub => subCarry a b
  | _ => false

/-- V: Add and Sub only, 0 for every other operation (R76, D8: log entry 9). -/
def overflowOf (op : AluOp) (a b : Word) : Bool :=
  match op with
  | .add => addOverflow a b
  | .sub => subOverflow a b
  | _ => false

/-- The four flags one execution of the ALU writes (R76). -/
def aluFlags (op : AluOp) (a b : Word) : Flags where
  z := aluResult op a b == 0#32
  c := carryOf op a b
  n := (aluResult op a b).msb
  v := overflowOf op a b

end Sys2Proof.Machine
end

