-- ==== Sys2Proof/Syntax.lean ====
section
/-! DEFINITION. Syntax.lean: the instructions, one constructor per row of spec/opcode_table.json, in its order.
Immediates are held as the bits the word carries, before sign extension: `imm12` is imm[11:0] (I and S formats),
`off12` is imm[12:1] (B), `imm20` is imm[31:12] (U), `off20` is imm[20:1] (J) (spec/30_encoding.md R59 to R64).
Bits a row leaves unexamined are fields too (R68, R70), so that no bit of a word is lost. -/

namespace Sys2Proof

inductive Instr where
  -- 42_upper_immediate.md
  | lui (rd : RegIdx) (imm20 : BitVec 20)
  | auipc (rd : RegIdx) (imm20 : BitVec 20)
  -- 43_jumps_branches.md
  | jal (rd : RegIdx) (off20 : BitVec 20)
  | jalr (rd rs1 : RegIdx) (funct3 : BitVec 3) (imm12 : BitVec 12)
  | beq (rs1 rs2 : RegIdx) (off12 : BitVec 12)
  | bne (rs1 rs2 : RegIdx) (off12 : BitVec 12)
  | blt (rs1 rs2 : RegIdx) (off12 : BitVec 12)
  | bge (rs1 rs2 : RegIdx) (off12 : BitVec 12)
  | bltu (rs1 rs2 : RegIdx) (off12 : BitVec 12)
  | bgeu (rs1 rs2 : RegIdx) (off12 : BitVec 12)
  | branchReserved (funct3 : BitVec 3) (rs1 rs2 : RegIdx) (off12 : BitVec 12)
  -- 44_loads_stores.md
  | lb (rd rs1 : RegIdx) (imm12 : BitVec 12)
  | lh (rd rs1 : RegIdx) (imm12 : BitVec 12)
  | lw (rd rs1 : RegIdx) (imm12 : BitVec 12)
  | lbu (rd rs1 : RegIdx) (imm12 : BitVec 12)
  | lhu (rd rs1 : RegIdx) (imm12 : BitVec 12)
  | loadReserved011 (rd rs1 : RegIdx) (imm12 : BitVec 12)
  | loadReserved110 (rd rs1 : RegIdx) (imm12 : BitVec 12)
  | loadReserved111 (rd rs1 : RegIdx) (imm12 : BitVec 12)
  | sb (rs1 rs2 : RegIdx) (imm12 : BitVec 12)
  | sh (rs1 rs2 : RegIdx) (imm12 : BitVec 12)
  | sw (rs1 rs2 : RegIdx) (imm12 : BitVec 12)
  | storeReserved011 (rs1 rs2 : RegIdx) (imm12 : BitVec 12)
  | storeReserved1xx (funct3 : BitVec 3) (rs1 rs2 : RegIdx) (imm12 : BitVec 12)
  -- 45_integer_ops.md, register-immediate
  | addi (rd rs1 : RegIdx) (imm12 : BitVec 12)
  | slti (rd rs1 : RegIdx) (imm12 : BitVec 12)
  | sltiu (rd rs1 : RegIdx) (imm12 : BitVec 12)
  | xori (rd rs1 : RegIdx) (imm12 : BitVec 12)
  | ori (rd rs1 : RegIdx) (imm12 : BitVec 12)
  | andi (rd rs1 : RegIdx) (imm12 : BitVec 12)
  | slli (rd rs1 : RegIdx) (funct7 : BitVec 7) (shamt : BitVec 5)
  | srli (rd rs1 : RegIdx) (funct7 : BitVec 7) (shamt : BitVec 5)
  | srai (rd rs1 : RegIdx) (funct7 : BitVec 7) (shamt : BitVec 5)
  -- 45_integer_ops.md, register-register
  | add (rd rs1 rs2 : RegIdx) (funct7 : BitVec 7)
  | sub (rd rs1 rs2 : RegIdx) (funct7 : BitVec 7)
  | sll (rd rs1 rs2 : RegIdx) (funct7 : BitVec 7)
  | slt (rd rs1 rs2 : RegIdx) (funct7 : BitVec 7)
  | sltu (rd rs1 rs2 : RegIdx) (funct7 : BitVec 7)
  | xor (rd rs1 rs2 : RegIdx) (funct7 : BitVec 7)
  | srl (rd rs1 rs2 : RegIdx) (funct7 : BitVec 7)
  | sra (rd rs1 rs2 : RegIdx) (funct7 : BitVec 7)
  | or (rd rs1 rs2 : RegIdx) (funct7 : BitVec 7)
  | and (rd rs1 rs2 : RegIdx) (funct7 : BitVec 7)
  -- 46_system_unrecognized.md
  | ecall
  | ebreak
  | system (rd rs1 : RegIdx) (funct3 : BitVec 3) (imm12 : BitVec 12)
  | miscMem (rd rs1 : RegIdx) (funct3 : BitVec 3) (imm12 : BitVec 12)
  | unrecognized (word : Word)
  deriving DecidableEq, Repr

end Sys2Proof
end

