-- ==== Sys2Proof/WellFormed.lean ====
section
/-! DEFINITION. WellFormed.lean: which field values a row of spec/opcode_table.json admits (its match and mask;
spec/30_encoding.md R68, R70). A row whose fields are all free has no check. -/

namespace Sys2Proof

/-- "funct7 bit 5", instr[30] (R58). -/
def funct7Bit5 (funct7 : BitVec 7) : Bool := funct7.getLsbD 5

/-- The opcodes that some row other than UNRECOGNIZED claims: the ten of R67, and MISC-MEM 0001111 (R154), which
the core treats as unrecognized but the table lists by itself. -/
def claimedOpcode (op : BitVec 7) : Bool :=
  op == 0b0110111 || op == 0b0010111 || op == 0b1101111 || op == 0b1100111 || op == 0b1100011 || op == 0b0000011 ||
  op == 0b0100011 || op == 0b0010011 || op == 0b0110011 || op == 0b1110011 || op == 0b0001111

/-- The instruction is one its own row of the opcode table encodes. -/
def Instr.wellFormed : Instr → Bool
  | .lui _ _ | .auipc _ _ | .jal _ _ | .jalr _ _ _ _ => true
  | .beq _ _ _ | .bne _ _ _ | .blt _ _ _ | .bge _ _ _ | .bltu _ _ _ | .bgeu _ _ _ => true
  | .branchReserved f3 _ _ _ => f3 == 0b010 || f3 == 0b011
  | .lb _ _ _ | .lh _ _ _ | .lw _ _ _ | .lbu _ _ _ | .lhu _ _ _ => true
  | .loadReserved011 _ _ _ | .loadReserved110 _ _ _ | .loadReserved111 _ _ _ => true
  | .sb _ _ _ | .sh _ _ _ | .sw _ _ _ | .storeReserved011 _ _ _ => true
  | .storeReserved1xx f3 _ _ _ => f3.getLsbD 2
  | .addi _ _ _ | .slti _ _ _ | .sltiu _ _ _ | .xori _ _ _ | .ori _ _ _ | .andi _ _ _ => true
  | .slli _ _ _ _ => true
  | .srli _ _ f7 _ => !funct7Bit5 f7
  | .srai _ _ f7 _ => funct7Bit5 f7
  | .add _ _ _ f7 => !funct7Bit5 f7
  | .sub _ _ _ f7 => funct7Bit5 f7
  | .sll _ _ _ _ | .slt _ _ _ _ | .sltu _ _ _ _ | .xor _ _ _ _ => true
  | .srl _ _ _ f7 => !funct7Bit5 f7
  | .sra _ _ _ f7 => funct7Bit5 f7
  | .or _ _ _ _ | .and _ _ _ _ => true
  | .ecall | .ebreak => true
  -- the SYSTEM row less the two words the rows ECALL and EBREAK take (R152, R153)
  | .system rd rs1 f3 imm => !(rd == 0 && rs1 == 0 && f3 == 0 && (imm == 0 || imm == 1))
  | .miscMem _ _ _ _ => true
  | .unrecognized w => !claimedOpcode (w.extractLsb' 0 7)

end Sys2Proof
end

