-- ==== Sys2Proof/Decode.lean ====
section
/-! DEFINITION. Decode.lean: the instruction decoder (spec/30_encoding.md R57 to R69), total on every word, and the
inverse encoding primitives (R66). Where two rows of spec/opcode_table.json match a word, the one with the longer
mask is read (ECALL and EBREAK before SYSTEM), and UNRECOGNIZED last: log entry 18. -/

namespace Sys2Proof

/-! ### Fields of a word (R58) -/

def fieldOpcode (w : Word) : BitVec 7 := w.extractLsb' 0 7
def fieldRd (w : Word) : RegIdx := w.extractLsb' 7 5
def fieldFunct3 (w : Word) : BitVec 3 := w.extractLsb' 12 3
def fieldRs1 (w : Word) : RegIdx := w.extractLsb' 15 5
def fieldRs2 (w : Word) : RegIdx := w.extractLsb' 20 5
def fieldFunct7 (w : Word) : BitVec 7 := w.extractLsb' 25 7

/-! ### Immediate bits of a word, before sign extension (R59) -/

/-- imm[11:0] of the I format: bits 31:20 (R60). -/
def bitsI (w : Word) : BitVec 12 := w.extractLsb' 20 12
/-- imm[11:0] of the S format: bits 31:25, 11:7 (R61). -/
def bitsS (w : Word) : BitVec 12 := w.extractLsb' 25 7 ++ w.extractLsb' 7 5
/-- imm[12:1] of the B format: bits 31, 7, 30:25, 11:8 (R62). -/
def bitsB (w : Word) : BitVec 12 :=
  w.extractLsb' 31 1 ++ w.extractLsb' 7 1 ++ w.extractLsb' 25 6 ++ w.extractLsb' 8 4
/-- imm[31:12] of the U format: bits 31:12 (R63). -/
def bitsU (w : Word) : BitVec 20 := w.extractLsb' 12 20
/-- imm[20:1] of the J format: bits 31, 19:12, 20, 30:21 (R64). -/
def bitsJ (w : Word) : BitVec 20 :=
  w.extractLsb' 31 1 ++ w.extractLsb' 12 8 ++ w.extractLsb' 20 1 ++ w.extractLsb' 21 10

/-! ### Immediate values (R60 to R64) -/

/-- The value of a 12-bit I or S immediate: sign-extended to 32 bits (R60, R61). -/
def immI (imm12 : BitVec 12) : Word := imm12.signExtend 32
/-- The value of a B immediate: bit 0 is 0, sign-extended (R62). -/
def immB (off12 : BitVec 12) : Word := (off12 ++ 0#1 : BitVec 13).signExtend 32
/-- The value of a U immediate: shifted left 12 (R63). -/
def immU (imm20 : BitVec 20) : Word := imm20 ++ 0#12
/-- The value of a J immediate: bit 0 is 0, sign-extended (R64). -/
def immJ (off20 : BitVec 20) : Word := (off20 ++ 0#1 : BitVec 21).signExtend 32

/-- Everything the instruction decoder puts out, for every word whatever its format (R32, R58, R60 to R64). -/
structure DecoderOut where
  opcode : BitVec 7
  rd : RegIdx
  funct3 : BitVec 3
  rs1 : RegIdx
  rs2 : RegIdx
  funct7 : BitVec 7
  immI : Word
  immS : Word
  immB : Word
  immU : Word
  immJ : Word
  deriving DecidableEq, Repr

/-- The instruction decoder's outputs (R32). -/
def decoderOut (w : Word) : DecoderOut where
  opcode := fieldOpcode w
  rd := fieldRd w
  funct3 := fieldFunct3 w
  rs1 := fieldRs1 w
  rs2 := fieldRs2 w
  funct7 := fieldFunct7 w
  immI := Sys2Proof.immI (bitsI w)
  immS := Sys2Proof.immI (bitsS w)
  immB := Sys2Proof.immB (bitsB w)
  immU := Sys2Proof.immU (bitsU w)
  immJ := Sys2Proof.immJ (bitsJ w)

/-! ### Decoding (R67 to R70, R93) -/

/-- BRANCH, by funct3 (R68, R116). -/
def decodeBranch (w : Word) : Instr :=
  match fieldFunct3 w with
  | 0b000 => .beq (fieldRs1 w) (fieldRs2 w) (bitsB w)
  | 0b001 => .bne (fieldRs1 w) (fieldRs2 w) (bitsB w)
  | 0b100 => .blt (fieldRs1 w) (fieldRs2 w) (bitsB w)
  | 0b101 => .bge (fieldRs1 w) (fieldRs2 w) (bitsB w)
  | 0b110 => .bltu (fieldRs1 w) (fieldRs2 w) (bitsB w)
  | 0b111 => .bgeu (fieldRs1 w) (fieldRs2 w) (bitsB w)
  | f3 => .branchReserved f3 (fieldRs1 w) (fieldRs2 w) (bitsB w)

/-- LOAD, by funct3 (R68, R124). -/
def decodeLoad (w : Word) : Instr :=
  match fieldFunct3 w with
  | 0b000 => .lb (fieldRd w) (fieldRs1 w) (bitsI w)
  | 0b001 => .lh (fieldRd w) (fieldRs1 w) (bitsI w)
  | 0b010 => .lw (fieldRd w) (fieldRs1 w) (bitsI w)
  | 0b100 => .lbu (fieldRd w) (fieldRs1 w) (bitsI w)
  | 0b101 => .lhu (fieldRd w) (fieldRs1 w) (bitsI w)
  | 0b011 => .loadReserved011 (fieldRd w) (fieldRs1 w) (bitsI w)
  | 0b110 => .loadReserved110 (fieldRd w) (fieldRs1 w) (bitsI w)
  | _ => .loadReserved111 (fieldRd w) (fieldRs1 w) (bitsI w)

/-- STORE, by funct3 (R68, R129). -/
def decodeStore (w : Word) : Instr :=
  match fieldFunct3 w with
  | 0b000 => .sb (fieldRs1 w) (fieldRs2 w) (bitsS w)
  | 0b001 => .sh (fieldRs1 w) (fieldRs2 w) (bitsS w)
  | 0b010 => .sw (fieldRs1 w) (fieldRs2 w) (bitsS w)
  | 0b011 => .storeReserved011 (fieldRs1 w) (fieldRs2 w) (bitsS w)
  | f3 => .storeReserved1xx f3 (fieldRs1 w) (fieldRs2 w) (bitsS w)

/-- OP-IMM, by funct3 and, for 101, instr[30] (R68, R93). -/
def decodeOpImm (w : Word) : Instr :=
  match fieldFunct3 w with
  | 0b000 => .addi (fieldRd w) (fieldRs1 w) (bitsI w)
  | 0b001 => .slli (fieldRd w) (fieldRs1 w) (fieldFunct7 w) (fieldRs2 w)
  | 0b010 => .slti (fieldRd w) (fieldRs1 w) (bitsI w)
  | 0b011 => .sltiu (fieldRd w) (fieldRs1 w) (bitsI w)
  | 0b100 => .xori (fieldRd w) (fieldRs1 w) (bitsI w)
  | 0b101 =>
    if funct7Bit5 (fieldFunct7 w) then .srai (fieldRd w) (fieldRs1 w) (fieldFunct7 w) (fieldRs2 w)
    else .srli (fieldRd w) (fieldRs1 w) (fieldFunct7 w) (fieldRs2 w)
  | 0b110 => .ori (fieldRd w) (fieldRs1 w) (bitsI w)
  | _ => .andi (fieldRd w) (fieldRs1 w) (bitsI w)

/-- OP, by funct3 and, for 000 and 101, instr[30] (R68, R93). -/
def decodeOp (w : Word) : Instr :=
  match fieldFunct3 w with
  | 0b000 =>
    if funct7Bit5 (fieldFunct7 w) then .sub (fieldRd w) (fieldRs1 w) (fieldRs2 w) (fieldFunct7 w)
    else .add (fieldRd w) (fieldRs1 w) (fieldRs2 w) (fieldFunct7 w)
  | 0b001 => .sll (fieldRd w) (fieldRs1 w) (fieldRs2 w) (fieldFunct7 w)
  | 0b010 => .slt (fieldRd w) (fieldRs1 w) (fieldRs2 w) (fieldFunct7 w)
  | 0b011 => .sltu (fieldRd w) (fieldRs1 w) (fieldRs2 w) (fieldFunct7 w)
  | 0b100 => .xor (fieldRd w) (fieldRs1 w) (fieldRs2 w) (fieldFunct7 w)
  | 0b101 =>
    if funct7Bit5 (fieldFunct7 w) then .sra (fieldRd w) (fieldRs1 w) (fieldRs2 w) (fieldFunct7 w)
    else .srl (fieldRd w) (fieldRs1 w) (fieldRs2 w) (fieldFunct7 w)
  | 0b110 => .or (fieldRd w) (fieldRs1 w) (fieldRs2 w) (fieldFunct7 w)
  | _ => .and (fieldRd w) (fieldRs1 w) (fieldRs2 w) (fieldFunct7 w)

/-- SYSTEM: the words ECALL and EBREAK have rows of their own (R151 to R153). -/
def decodeSystem (w : Word) : Instr :=
  if w = 0x00000073 then .ecall
  else if w = 0x00100073 then .ebreak
  else .system (fieldRd w) (fieldRs1 w) (fieldFunct3 w) (bitsI w)

/-- Decoding dispatches on the opcode (R67) and is total: every word decodes to exactly one instruction (R69). -/
def decode (w : Word) : Instr :=
  match fieldOpcode w with
  | 0b0110111 => .lui (fieldRd w) (bitsU w)
  | 0b0010111 => .auipc (fieldRd w) (bitsU w)
  | 0b1101111 => .jal (fieldRd w) (bitsJ w)
  | 0b1100111 => .jalr (fieldRd w) (fieldRs1 w) (fieldFunct3 w) (bitsI w)
  | 0b1100011 => decodeBranch w
  | 0b0000011 => decodeLoad w
  | 0b0100011 => decodeStore w
  | 0b0010011 => decodeOpImm w
  | 0b0110011 => decodeOp w
  | 0b1110011 => decodeSystem w
  | 0b0001111 => .miscMem (fieldRd w) (fieldRs1 w) (fieldFunct3 w) (bitsI w)
  | _ => .unrecognized w

/-! ### Bytes (R40, R57) -/

/-- Why a list of bytes holds no instruction: every instruction is one whole word (R57). -/
inductive DecodeError where
  /-- Fewer than four bytes were given. Safe: a fetch always moves a whole word (R41), so no step meets it. -/
  | tooFewBytes
  deriving DecidableEq, Repr

/-- The word whose lanes 0 to 3 are the four bytes (little-endian, R40). -/
def wordOfBytes (b0 b1 b2 b3 : Byte) : Word := b3 ++ b2 ++ b1 ++ b0

/-- The four lanes of a word, lane 0 first (R40). -/
def bytesOfWord (w : Word) : List Byte :=
  [w.extractLsb' 0 8, w.extractLsb' 8 8, w.extractLsb' 16 8, w.extractLsb' 24 8]

/-- Decode the first instruction of a list of bytes, and give the rest of the list. -/
def decodeBytes : List Byte → Except DecodeError (Instr × List Byte)
  | b0 :: b1 :: b2 :: b3 :: rest => .ok (decode (wordOfBytes b0 b1 b2 b3), rest)
  | _ => .error .tooFewBytes

/-- What the decoder reads from the word `w`, its bits numbered as spec/opcode_table.json numbers them, of which the
table gives `nbits`; bits above them are 0. An instruction has 32 bits (R57), so a wider row is refused. -/
def decodeTableWord (nbits w : Nat) : Option Instr :=
  if 32 < nbits then none
  else
    match decodeBytes (bytesOfWord (BitVec.ofNat 32 (w % 2 ^ nbits))) with
    | .ok (i, _) => some i
    | .error _ => none

/-! ### Encoding (R66) -/

/-- R: funct7, rs2, rs1, funct3, rd, opcode (R66). -/
def packR (opcode : BitVec 7) (funct3 : BitVec 3) (funct7 : BitVec 7) (rd rs1 rs2 : RegIdx) : Word :=
  funct7 ++ rs2 ++ rs1 ++ funct3 ++ rd ++ opcode
/-- I: imm[11:0], rs1, funct3, rd, opcode (R66). -/
def packI (opcode : BitVec 7) (funct3 : BitVec 3) (rd rs1 : RegIdx) (imm : Word) : Word :=
  imm.extractLsb' 0 12 ++ rs1 ++ funct3 ++ rd ++ opcode
/-- S: imm[11:5], rs2, rs1, funct3, imm[4:0], opcode (R66). -/
def packS (opcode : BitVec 7) (funct3 : BitVec 3) (rs1 rs2 : RegIdx) (imm : Word) : Word :=
  imm.extractLsb' 5 7 ++ rs2 ++ rs1 ++ funct3 ++ imm.extractLsb' 0 5 ++ opcode
/-- B: imm[12], imm[10:5], rs2, rs1, funct3, imm[4:1], imm[11], opcode (R66). -/
def packB (opcode : BitVec 7) (funct3 : BitVec 3) (rs1 rs2 : RegIdx) (imm : Word) : Word :=
  imm.extractLsb' 12 1 ++ imm.extractLsb' 5 6 ++ rs2 ++ rs1 ++ funct3 ++ imm.extractLsb' 1 4 ++
    imm.extractLsb' 11 1 ++ opcode
/-- U: imm[31:12], rd, opcode (R66). -/
def packU (opcode : BitVec 7) (rd : RegIdx) (imm : Word) : Word := imm.extractLsb' 12 20 ++ rd ++ opcode
/-- J: imm[20], imm[10:1], imm[11], imm[19:12], rd, opcode (R66). -/
def packJ (opcode : BitVec 7) (rd : RegIdx) (imm : Word) : Word :=
  imm.extractLsb' 20 1 ++ imm.extractLsb' 1 10 ++ imm.extractLsb' 11 1 ++ imm.extractLsb' 12 8 ++ rd ++ opcode

/-- An immediate shift as the I format carries it: funct7 above the shift amount (R65). -/
def shiftBits (funct7 : BitVec 7) (shamt : BitVec 5) : BitVec 12 := funct7 ++ shamt

/-- The word of an instruction: the mirror image of `decode` (R66, R67, R68). -/
def encode : Instr → Word
  | .lui rd imm => packU 0b0110111 rd (immU imm)
  | .auipc rd imm => packU 0b0010111 rd (immU imm)
  | .jal rd off => packJ 0b1101111 rd (immJ off)
  | .jalr rd rs1 f3 imm => packI 0b1100111 f3 rd rs1 (immI imm)
  | .beq rs1 rs2 off => packB 0b1100011 0b000 rs1 rs2 (immB off)
  | .bne rs1 rs2 off => packB 0b1100011 0b001 rs1 rs2 (immB off)
  | .blt rs1 rs2 off => packB 0b1100011 0b100 rs1 rs2 (immB off)
  | .bge rs1 rs2 off => packB 0b1100011 0b101 rs1 rs2 (immB off)
  | .bltu rs1 rs2 off => packB 0b1100011 0b110 rs1 rs2 (immB off)
  | .bgeu rs1 rs2 off => packB 0b1100011 0b111 rs1 rs2 (immB off)
  | .branchReserved f3 rs1 rs2 off => packB 0b1100011 f3 rs1 rs2 (immB off)
  | .lb rd rs1 imm => packI 0b0000011 0b000 rd rs1 (immI imm)
  | .lh rd rs1 imm => packI 0b0000011 0b001 rd rs1 (immI imm)
  | .lw rd rs1 imm => packI 0b0000011 0b010 rd rs1 (immI imm)
  | .lbu rd rs1 imm => packI 0b0000011 0b100 rd rs1 (immI imm)
  | .lhu rd rs1 imm => packI 0b0000011 0b101 rd rs1 (immI imm)
  | .loadReserved011 rd rs1 imm => packI 0b0000011 0b011 rd rs1 (immI imm)
  | .loadReserved110 rd rs1 imm => packI 0b0000011 0b110 rd rs1 (immI imm)
  | .loadReserved111 rd rs1 imm => packI 0b0000011 0b111 rd rs1 (immI imm)
  | .sb rs1 rs2 imm => packS 0b0100011 0b000 rs1 rs2 (immI imm)
  | .sh rs1 rs2 imm => packS 0b0100011 0b001 rs1 rs2 (immI imm)
  | .sw rs1 rs2 imm => packS 0b0100011 0b010 rs1 rs2 (immI imm)
  | .storeReserved011 rs1 rs2 imm => packS 0b0100011 0b011 rs1 rs2 (immI imm)
  | .storeReserved1xx f3 rs1 rs2 imm => packS 0b0100011 f3 rs1 rs2 (immI imm)
  | .addi rd rs1 imm => packI 0b0010011 0b000 rd rs1 (immI imm)
  | .slti rd rs1 imm => packI 0b0010011 0b010 rd rs1 (immI imm)
  | .sltiu rd rs1 imm => packI 0b0010011 0b011 rd rs1 (immI imm)
  | .xori rd rs1 imm => packI 0b0010011 0b100 rd rs1 (immI imm)
  | .ori rd rs1 imm => packI 0b0010011 0b110 rd rs1 (immI imm)
  | .andi rd rs1 imm => packI 0b0010011 0b111 rd rs1 (immI imm)
  | .slli rd rs1 f7 shamt => packI 0b0010011 0b001 rd rs1 (immI (shiftBits f7 shamt))
  | .srli rd rs1 f7 shamt => packI 0b0010011 0b101 rd rs1 (immI (shiftBits f7 shamt))
  | .srai rd rs1 f7 shamt => packI 0b0010011 0b101 rd rs1 (immI (shiftBits f7 shamt))
  | .add rd rs1 rs2 f7 => packR 0b0110011 0b000 f7 rd rs1 rs2
  | .sub rd rs1 rs2 f7 => packR 0b0110011 0b000 f7 rd rs1 rs2
  | .sll rd rs1 rs2 f7 => packR 0b0110011 0b001 f7 rd rs1 rs2
  | .slt rd rs1 rs2 f7 => packR 0b0110011 0b010 f7 rd rs1 rs2
  | .sltu rd rs1 rs2 f7 => packR 0b0110011 0b011 f7 rd rs1 rs2
  | .xor rd rs1 rs2 f7 => packR 0b0110011 0b100 f7 rd rs1 rs2
  | .srl rd rs1 rs2 f7 => packR 0b0110011 0b101 f7 rd rs1 rs2
  | .sra rd rs1 rs2 f7 => packR 0b0110011 0b101 f7 rd rs1 rs2
  | .or rd rs1 rs2 f7 => packR 0b0110011 0b110 f7 rd rs1 rs2
  | .and rd rs1 rs2 f7 => packR 0b0110011 0b111 f7 rd rs1 rs2
  | .ecall => packI 0b1110011 0b000 0 0 0
  | .ebreak => packI 0b1110011 0b000 0 0 1
  | .system rd rs1 f3 imm => packI 0b1110011 f3 rd rs1 (immI imm)
  | .miscMem rd rs1 f3 imm => packI 0b0001111 f3 rd rs1 (immI imm)
  | .unrecognized w => w

/-- The `match` and `mask` of an instruction's row of spec/opcode_table.json. -/
def tableRow : Instr → Word × Word
  | .lui _ _ => (0x00000037#32, 0x0000007F#32)
  | .auipc _ _ => (0x00000017#32, 0x0000007F#32)
  | .jal _ _ => (0x0000006F#32, 0x0000007F#32)
  | .jalr _ _ _ _ => (0x00000067#32, 0x0000007F#32)
  | .beq _ _ _ => (0x00000063#32, 0x0000707F#32)
  | .bne _ _ _ => (0x00001063#32, 0x0000707F#32)
  | .blt _ _ _ => (0x00004063#32, 0x0000707F#32)
  | .bge _ _ _ => (0x00005063#32, 0x0000707F#32)
  | .bltu _ _ _ => (0x00006063#32, 0x0000707F#32)
  | .bgeu _ _ _ => (0x00007063#32, 0x0000707F#32)
  | .branchReserved _ _ _ _ => (0x00002063#32, 0x0000607F#32)
  | .lb _ _ _ => (0x00000003#32, 0x0000707F#32)
  | .lh _ _ _ => (0x00001003#32, 0x0000707F#32)
  | .lw _ _ _ => (0x00002003#32, 0x0000707F#32)
  | .lbu _ _ _ => (0x00004003#32, 0x0000707F#32)
  | .lhu _ _ _ => (0x00005003#32, 0x0000707F#32)
  | .loadReserved011 _ _ _ => (0x00003003#32, 0x0000707F#32)
  | .loadReserved110 _ _ _ => (0x00006003#32, 0x0000707F#32)
  | .loadReserved111 _ _ _ => (0x00007003#32, 0x0000707F#32)
  | .sb _ _ _ => (0x00000023#32, 0x0000707F#32)
  | .sh _ _ _ => (0x00001023#32, 0x0000707F#32)
  | .sw _ _ _ => (0x00002023#32, 0x0000707F#32)
  | .storeReserved011 _ _ _ => (0x00003023#32, 0x0000707F#32)
  | .storeReserved1xx _ _ _ _ => (0x00004023#32, 0x0000407F#32)
  | .addi _ _ _ => (0x00000013#32, 0x0000707F#32)
  | .slti _ _ _ => (0x00002013#32, 0x0000707F#32)
  | .sltiu _ _ _ => (0x00003013#32, 0x0000707F#32)
  | .xori _ _ _ => (0x00004013#32, 0x0000707F#32)
  | .ori _ _ _ => (0x00006013#32, 0x0000707F#32)
  | .andi _ _ _ => (0x00007013#32, 0x0000707F#32)
  | .slli _ _ _ _ => (0x00001013#32, 0x0000707F#32)
  | .srli _ _ _ _ => (0x00005013#32, 0x4000707F#32)
  | .srai _ _ _ _ => (0x40005013#32, 0x4000707F#32)
  | .add _ _ _ _ => (0x00000033#32, 0x4000707F#32)
  | .sub _ _ _ _ => (0x40000033#32, 0x4000707F#32)
  | .sll _ _ _ _ => (0x00001033#32, 0x0000707F#32)
  | .slt _ _ _ _ => (0x00002033#32, 0x0000707F#32)
  | .sltu _ _ _ _ => (0x00003033#32, 0x0000707F#32)
  | .xor _ _ _ _ => (0x00004033#32, 0x0000707F#32)
  | .srl _ _ _ _ => (0x00005033#32, 0x4000707F#32)
  | .sra _ _ _ _ => (0x40005033#32, 0x4000707F#32)
  | .or _ _ _ _ => (0x00006033#32, 0x0000707F#32)
  | .and _ _ _ _ => (0x00007033#32, 0x0000707F#32)
  | .ecall => (0x00000073#32, 0xFFFFFFFF#32)
  | .ebreak => (0x00100073#32, 0xFFFFFFFF#32)
  | .system _ _ _ _ => (0x00000073#32, 0x0000007F#32)
  | .miscMem _ _ _ _ => (0x0000000F#32, 0x0000007F#32)
  | .unrecognized _ => (0x00000000#32, 0x00000000#32)

end Sys2Proof
end

