-- ==== Sys2Proof/Machine/Ops.lean ====
section
/-! DEFINITION. Machine/Ops.lean: the named operations over registers (spec/10_state.md R17 to R20), memory
(spec/20_memory.md R38 to R45) and the program counter and cycle counter (spec/41_control_and_cycle.md R98, R99).

TAKING AN EXCEPTION has no operation here, and neither has returning from one: the core has no trap entry and no
trap return (spec/60_exceptions.md R156, R161, R162). -/

namespace Sys2Proof.Machine

/-! ### Registers -/

/-- A read port: `x[i]`, with `x[0] = 0` (R18, R19). -/
def State.readReg (s : State) (i : RegIdx) : Word :=
  if i = 0#5 then 0#32 else s.xregs[i.toNat - 1]'(by have := i.isLt; omega)

/-- The write port: a write to register 0 mutates nothing (R18, R20). -/
def State.writeReg (s : State) (rd : RegIdx) (value : Word) : State :=
  if rd = 0#5 then s else { s with xregs := s.xregs.set (rd.toNat - 1) value (by have := rd.isLt; omega) }

/-! ### Memory as cells -/

/-- What an unlisted cell reads as: 0, the memory at construction (R46, R172; log entry 4). -/
def Memory.unlisted : Byte := 0#8

/-- The byte a cell holds. -/
def Memory.readByte : Memory → Nat → Byte
  | [], _ => Memory.unlisted
  | (j, c) :: rest, k => if k = j then c else Memory.readByte rest k

/-- `(k, b)` in front of a list, listed only if an unlisted cell reads otherwise. -/
def Memory.cons (k : Nat) (b : Byte) (rest : Memory) : Memory :=
  if b = Memory.unlisted then rest else (k, b) :: rest

/-- Write a byte into a cell, keeping the canonical form. -/
def Memory.writeByte : Memory → Nat → Byte → Memory
  | [], k, b => Memory.cons k b []
  | (j, c) :: rest, k, b =>
    if k < j then Memory.cons k b ((j, c) :: rest)
    else if k = j then Memory.cons k b rest
    else (j, c) :: Memory.writeByte rest k b

/-- Every listed cell is at least `lo`, the cells strictly rise, and none holds what an unlisted one reads as. -/
def Memory.wfFrom : Nat → Memory → Bool
  | _, [] => true
  | lo, (j, c) :: rest => decide (lo ≤ j) && c != Memory.unlisted && Memory.wfFrom (j + 1) rest

/-- The canonical form: equal memories are equal lists. -/
def Memory.wf (m : Memory) : Bool := Memory.wfFrom 0 m

/-- Every listed cell is one of the first `n`. -/
def Memory.below (n : Nat) (m : Memory) : Bool := m.all fun cell => decide (cell.1 < n)

/-! ### Memory as words and lanes -/

/-- The word index of a byte address: `a[31:2] mod N` (R39). -/
def wordIndex (n : MemSize) (a : Word) : Nat := (a.extractLsb' 2 30).toNat % n.words

/-- The lane of a byte address, `a[1:0]` (R40). -/
def lane (a : Word) : Nat := (a.extractLsb' 0 2).toNat

/-- The cell of a byte address: its lane of its word (R39, R40). -/
def byteCell (n : MemSize) (a : Word) : Nat := 4 * wordIndex n a + lane a

/-- `mem[i]`, its lane 0 the least significant byte (R40). -/
def Memory.readWord (m : Memory) (i : Nat) : Word :=
  wordOfBytes (Memory.readByte m (4 * i)) (Memory.readByte m (4 * i + 1)) (Memory.readByte m (4 * i + 2))
    (Memory.readByte m (4 * i + 3))

/-- `mem[i] <- v`, all four lanes. -/
def Memory.writeWord (m : Memory) (i : Nat) (v : Word) : Memory :=
  Memory.writeByte (Memory.writeByte (Memory.writeByte (Memory.writeByte m (4 * i) (v.extractLsb' 0 8))
    (4 * i + 1) (v.extractLsb' 8 8)) (4 * i + 2) (v.extractLsb' 16 8)) (4 * i + 3) (v.extractLsb' 24 8)

/-- `mem[widx(a)]`, the word a byte address selects (R39). -/
def State.wordAt (s : State) (a : Word) : Word := Memory.readWord s.mem (wordIndex s.memSize a)

/-- The byte at a byte address (R40). -/
def State.byteAt (s : State) (a : Word) : Byte := Memory.readByte s.mem (byteCell s.memSize a)

/-- `Fetch(a)`: the whole word, `a[1:0]` unused (R41). -/
def State.fetch (s : State) (a : Word) : Word := s.wordAt a

/-- The widths of the data port (R35). -/
inductive Width where
  | byte | half | word
  deriving DecidableEq, Repr

/-- How many bytes a width moves: the `n` of MemRead and MemWrite (R42, R43). -/
def widthBytes : Width → Nat
  | .byte => 1
  | .half => 2
  | .word => 4

/-- The alignment an access needs (R47). -/
def aligned (w : Width) (a : Word) : Bool :=
  match w with
  | .byte => true
  | .half => a.extractLsb' 0 1 == 0#1
  | .word => a.extractLsb' 0 2 == 0#2

/-- `MemRead(a, n)`: the raw value, zero-padded (R35, R42); `none` is the marker Misaligned. -/
def State.memRead (s : State) (w : Width) (a : Word) : Option Word :=
  if aligned w a then
    match w with
    | .byte => some (((s.wordAt a).extractLsb' (8 * lane a) 8).setWidth 32)
    | .half => some (((s.wordAt a).extractLsb' (8 * lane a) 16).setWidth 32)
    | .word => some (s.wordAt a)
  else none

/-- `MemWrite(a, n, v)`: only the selected lanes change; a misaligned halfword or word write changes nothing (R43). -/
def State.memWrite (s : State) (w : Width) (a v : Word) : State :=
  if aligned w a then
    match w with
    | .byte => { s with mem := Memory.writeByte s.mem (byteCell s.memSize a) (v.extractLsb' 0 8) }
    | .half => { s with mem := Memory.writeByte (Memory.writeByte s.mem (byteCell s.memSize a) (v.extractLsb' 0 8))
                                 (byteCell s.memSize a + 1) (v.extractLsb' 8 8) }
    | .word => { s with mem := Memory.writeWord s.mem (wordIndex s.memSize a) v }
  else s

/-! ### Flags, program counter, cycle counter, free values -/

/-- Write the flag register (R26). -/
def State.setFlags (s : State) (f : Flags) : State := { s with flags := f }

/-- Mask to 4-byte alignment, `& ~0b11` (R24, R98). -/
def alignPc (v : Word) : Word := v &&& ~~~3#32

/-- `update_pc`: a transfer goes to the masked target, everything else to `pc + 4` modulo 2^32 (R98). -/
def State.updatePc (s : State) (transfer : Bool) (target : Word) : State :=
  { s with pc := if transfer then alignPc target else s.pc + 4#32 }

/-- The end of a cycle, after the pc update: the cycle counter advances by one (R99). -/
def State.countCycle (s : State) : State := { s with cycleCount := s.cycleCount + 1#64 }

/-- The end of an instruction that transfers no control: `pc + 4`, and one cycle (R98, R99). -/
def State.advance (s : State) : State := (s.updatePc false 0#32).countCycle

/-- The end of an instruction that transfers control to `target`: masked, and one cycle (R98, R99). -/
def State.jumpTo (s : State) (target : Word) : State := (s.updatePc true target).countCycle

/-- `draw(misaligned_load_value)`: the free value at the next index, and the state with that index used (R118, D4). -/
def State.drawMisaligned (s : State) : Word × State :=
  (Config.misalignedLoadValue s.draws, { s with draws := s.draws + 1 })

/-- `draw(reserved_load_value)`: the free value at the next index, and the state with that index used (R124, D5). -/
def State.drawReserved (s : State) : Word × State :=
  (Config.reservedLoadValue s.draws, { s with draws := s.draws + 1 })

end Sys2Proof.Machine
end

