-- ==== Sys2Proof/Machine/Operands.lean ====
section
/-! DEFINITION. Machine/Operands.lean: the operand forms of the instructions, read from the start-of-cycle state
(spec/41_control_and_cycle.md R95, R96, R100), the branch conditions (spec/43_jumps_branches.md R109), the load
path's extension (spec/44_loads_stores.md R118), and the shared shapes of an instruction's cycle. -/

namespace Sys2Proof.Machine

/-! ### Operand forms -/

/-- Base register plus sign-extended 12-bit offset, modulo 2^32: the only addressing mode (R118, R125), and JALR's
target before masking (R107). -/
def State.baseOffset (s : State) (rs1 : RegIdx) (imm12 : BitVec 12) : Word := s.readReg rs1 + immI imm12

/-- The register index JAL's immediate bits show to read port 1: instr[19:15] is imm[19:15] (R64, R106). -/
def jalPort1 (off20 : BitVec 20) : RegIdx := off20.extractLsb' 14 5

/-- The register index JAL's immediate bits show to read port 2: instr[24:21] is imm[4:1] and instr[20] is imm[11]
(R64, R106). -/
def jalPort2 (off20 : BitVec 20) : RegIdx := off20.extractLsb' 0 4 ++ off20.extractLsb' 10 1

/-- The six branch conditions by funct3; 010 and 011 never hold (R109, D7: log entries 6 and 7). -/
def branchCond (funct3 : BitVec 3) (v1 v2 : Word) : Bool :=
  match funct3 with
  | 0b000 => v1 == v2
  | 0b001 => v1 != v2
  | 0b100 => v1.slt v2
  | 0b101 => !v1.slt v2
  | 0b110 => v1.ult v2
  | 0b111 => !v1.ult v2
  | _ => false

/-- The load path's extension of a raw value (R118, D3: log entry 6). -/
def extendLoad (w : Width) (signed : Bool) (raw : Word) : Word :=
  match w, signed with
  | .byte, true => (raw.extractLsb' 0 8).signExtend 32
  | .byte, false => (raw.extractLsb' 0 8).setWidth 32
  | .half, true => (raw.extractLsb' 0 16).signExtend 32
  | .half, false => (raw.extractLsb' 0 16).setWidth 32
  | .word, _ => raw

/-- The value a load of a defined width writes back, and the state after any draw: the extended raw value, or a drawn
value where the read is misaligned (R118, D4). -/
def State.loadValue (s : State) (w : Width) (signed : Bool) (addr : Word) : Word × State :=
  match s.memRead w addr with
  | some raw => (extendLoad w signed raw, s)
  | none => s.drawMisaligned

/-! ### Shared shapes of a cycle -/

/-- Steps 5, 9 and 10 of an instruction that writes its ALU result: flags, `x[rd]`, `pc + 4` (LUI, AUIPC, OP-IMM,
OP: R104, R105, R130, R140). -/
def State.aluToReg (s : State) (op : AluOp) (rd : RegIdx) (a b : Word) : State :=
  ((s.setFlags (aluFlags op a b)).writeReg rd (aluResult op a b)).advance

/-- Steps 5, 9 and 10 of a jump: the flags of Add, the link `pc + 4` into `rd`, the masked target (R106, R107). -/
def State.linkAndJump (s : State) (rd : RegIdx) (a b target : Word) : State :=
  ((s.setFlags (aluFlags .add a b)).writeReg rd (s.pc + 4#32)).jumpTo target

/-- A BRANCH word: the flags of Sub of the two registers, taken or not; the target is relative to the branch (R108). -/
def State.branch (s : State) (funct3 : BitVec 3) (rs1 rs2 : RegIdx) (off12 : BitVec 12) : State :=
  ((s.setFlags (aluFlags .sub (s.readReg rs1) (s.readReg rs2))).updatePc
    (branchCond funct3 (s.readReg rs1) (s.readReg rs2)) (s.pc + immB off12)).countCycle

/-- A LOAD word of a defined width: the flags of the address Add, then the value into `rd` (R118). -/
def State.load (s : State) (w : Width) (signed : Bool) (rd rs1 : RegIdx) (imm12 : BitVec 12) : State :=
  let (value, s') := (s.setFlags (aluFlags .add (s.readReg rs1) (immI imm12))).loadValue w signed (s.baseOffset rs1 imm12)
  (s'.writeReg rd value).advance

/-- A LOAD word of a reserved funct3: the flags of the address Add, then a drawn value into `rd` (R124). -/
def State.loadReserved (s : State) (rd rs1 : RegIdx) (imm12 : BitVec 12) : State :=
  let (value, s') := (s.setFlags (aluFlags .add (s.readReg rs1) (immI imm12))).drawReserved
  (s'.writeReg rd value).advance

/-- A STORE word of a defined width: the flags of the address Add, then the masked write of `x[rs2]` (R125). -/
def State.store (s : State) (w : Width) (rs1 rs2 : RegIdx) (imm12 : BitVec 12) : State :=
  ((s.setFlags (aluFlags .add (s.readReg rs1) (immI imm12))).memWrite w (s.baseOffset rs1 imm12) (s.readReg rs2)).advance

/-- A STORE word of a reserved funct3: the flags of the address Add, and no write (R129, D6: log entry 8). -/
def State.storeNothing (s : State) (rs1 : RegIdx) (imm12 : BitVec 12) : State :=
  (s.setFlags (aluFlags .add (s.readReg rs1) (immI imm12))).advance

/-- A no-op word: the flags of PassA of the register its rs1 field names, and `pc + 4` (R151, R154, R155). -/
def State.inert (s : State) (rs1 rs2 : RegIdx) : State :=
  (s.setFlags (aluFlags .passA (s.readReg rs1) (s.readReg rs2))).advance

end Sys2Proof.Machine
end

