-- ==== Sys2Proof/Machine/Branch.lean ====
section
/-! DEFINITION. Machine/Branch.lean: the meanings of the branches (spec/43_jumps_branches.md section 2). -/

namespace Sys2Proof.Machine

open Host (Outcome)

/-- BEQ: branch if equal (R108, R109, R110). -/
def execBeq (rs1 rs2 : RegIdx) (off12 : BitVec 12) (s : State) : Outcome State Fault Refusal :=
  .next (s.branch 0b000 rs1 rs2 off12)

/-- BNE: branch if not equal (R108, R109, R111). -/
def execBne (rs1 rs2 : RegIdx) (off12 : BitVec 12) (s : State) : Outcome State Fault Refusal :=
  .next (s.branch 0b001 rs1 rs2 off12)

/-- BLT: branch if less than, signed (R108, R109, R112). -/
def execBlt (rs1 rs2 : RegIdx) (off12 : BitVec 12) (s : State) : Outcome State Fault Refusal :=
  .next (s.branch 0b100 rs1 rs2 off12)

/-- BGE: branch if greater or equal, signed (R108, R109, R113). -/
def execBge (rs1 rs2 : RegIdx) (off12 : BitVec 12) (s : State) : Outcome State Fault Refusal :=
  .next (s.branch 0b101 rs1 rs2 off12)

/-- BLTU: branch if less than, unsigned (R108, R109, R114). -/
def execBltu (rs1 rs2 : RegIdx) (off12 : BitVec 12) (s : State) : Outcome State Fault Refusal :=
  .next (s.branch 0b110 rs1 rs2 off12)

/-- BGEU: branch if greater or equal, unsigned (R108, R109, R115). -/
def execBgeu (rs1 rs2 : RegIdx) (off12 : BitVec 12) (s : State) : Outcome State Fault Refusal :=
  .next (s.branch 0b111 rs1 rs2 off12)

/-- BRANCH with funct3 010 or 011: the condition never holds (R109, R116). -/
def execBranchReserved (funct3 : BitVec 3) (rs1 rs2 : RegIdx) (off12 : BitVec 12) (s : State) : Outcome State Fault Refusal :=
  .next (s.branch funct3 rs1 rs2 off12)

end Sys2Proof.Machine
end

