-- ==== Sys2Proof/Machine/Jump.lean ====
section
/-! DEFINITION. Machine/Jump.lean: the meanings of JAL and JALR (spec/43_jumps_branches.md section 1). -/

namespace Sys2Proof.Machine

open Host (Outcome)

/-- JAL: link, then `pc + imm_j` masked; the flags are Add of the two registers the read ports take from the
immediate bits 19:15 and 24:20 (R106: log entry 14). -/
def execJal (rd : RegIdx) (off20 : BitVec 20) (s : State) : Outcome State Fault Refusal :=
  .next (s.linkAndJump rd (s.readReg (jalPort1 off20)) (s.readReg (jalPort2 off20)) (s.pc + immJ off20))

/-- JALR: link, then `(x[rs1] + imm_i) & ~1` masked again, `x[rs1]` read before the link is written; funct3 is not
examined (R107). -/
def execJalr (rd rs1 : RegIdx) (_funct3 : BitVec 3) (imm12 : BitVec 12) (s : State) : Outcome State Fault Refusal :=
  .next (s.linkAndJump rd (s.readReg rs1) (immI imm12) (s.baseOffset rs1 imm12 &&& ~~~1#32))

end Sys2Proof.Machine
end

