-- ==== Sys2Proof/Machine/Load.lean ====
section
/-! DEFINITION. Machine/Load.lean: the meanings of the loads (spec/44_loads_stores.md section 1). -/

namespace Sys2Proof.Machine

open Host (Outcome)

/-- LB: load byte, sign-extended (R118, R119). -/
def execLb (rd rs1 : RegIdx) (imm12 : BitVec 12) (s : State) : Outcome State Fault Refusal :=
  .next (s.load .byte true rd rs1 imm12)

/-- LH: load halfword, sign-extended (R118, R120). -/
def execLh (rd rs1 : RegIdx) (imm12 : BitVec 12) (s : State) : Outcome State Fault Refusal :=
  .next (s.load .half true rd rs1 imm12)

/-- LW: load word (R118, R121). -/
def execLw (rd rs1 : RegIdx) (imm12 : BitVec 12) (s : State) : Outcome State Fault Refusal :=
  .next (s.load .word false rd rs1 imm12)

/-- LBU: load byte, zero-extended (R118, R122). -/
def execLbu (rd rs1 : RegIdx) (imm12 : BitVec 12) (s : State) : Outcome State Fault Refusal :=
  .next (s.load .byte false rd rs1 imm12)

/-- LHU: load halfword, zero-extended (R118, R123). -/
def execLhu (rd rs1 : RegIdx) (imm12 : BitVec 12) (s : State) : Outcome State Fault Refusal :=
  .next (s.load .half false rd rs1 imm12)

/-- LOAD with funct3 011: `rd` receives a free value (R124). -/
def execLoadReserved011 (rd rs1 : RegIdx) (imm12 : BitVec 12) (s : State) : Outcome State Fault Refusal :=
  .next (s.loadReserved rd rs1 imm12)

/-- LOAD with funct3 110: `rd` receives a free value (R124). -/
def execLoadReserved110 (rd rs1 : RegIdx) (imm12 : BitVec 12) (s : State) : Outcome State Fault Refusal :=
  .next (s.loadReserved rd rs1 imm12)

/-- LOAD with funct3 111: `rd` receives a free value (R124). -/
def execLoadReserved111 (rd rs1 : RegIdx) (imm12 : BitVec 12) (s : State) : Outcome State Fault Refusal :=
  .next (s.loadReserved rd rs1 imm12)

end Sys2Proof.Machine
end

