-- ==== Sys2Proof/Machine/Op.lean ====
section
/-! DEFINITION. Machine/Op.lean: the meanings of the register-register instructions (spec/45_integer_ops.md section 2).
Of funct7 only bit 5 is examined, by the decoder (R93, R140). -/

namespace Sys2Proof.Machine

open Host (Outcome)

/-- ADD (R140, R141). -/
def execAdd (rd rs1 rs2 : RegIdx) (_funct7 : BitVec 7) (s : State) : Outcome State Fault Refusal :=
  .next (s.aluToReg .add rd (s.readReg rs1) (s.readReg rs2))

/-- SUB (R140, R142). -/
def execSub (rd rs1 rs2 : RegIdx) (_funct7 : BitVec 7) (s : State) : Outcome State Fault Refusal :=
  .next (s.aluToReg .sub rd (s.readReg rs1) (s.readReg rs2))

/-- SLL (R140, R143). -/
def execSll (rd rs1 rs2 : RegIdx) (_funct7 : BitVec 7) (s : State) : Outcome State Fault Refusal :=
  .next (s.aluToReg .sll rd (s.readReg rs1) (s.readReg rs2))

/-- SLT (R140, R144). -/
def execSlt (rd rs1 rs2 : RegIdx) (_funct7 : BitVec 7) (s : State) : Outcome State Fault Refusal :=
  .next (s.aluToReg .slt rd (s.readReg rs1) (s.readReg rs2))

/-- SLTU (R140, R145). -/
def execSltu (rd rs1 rs2 : RegIdx) (_funct7 : BitVec 7) (s : State) : Outcome State Fault Refusal :=
  .next (s.aluToReg .sltu rd (s.readReg rs1) (s.readReg rs2))

/-- XOR (R140, R146). -/
def execXor (rd rs1 rs2 : RegIdx) (_funct7 : BitVec 7) (s : State) : Outcome State Fault Refusal :=
  .next (s.aluToReg .xor rd (s.readReg rs1) (s.readReg rs2))

/-- SRL (R140, R147). -/
def execSrl (rd rs1 rs2 : RegIdx) (_funct7 : BitVec 7) (s : State) : Outcome State Fault Refusal :=
  .next (s.aluToReg .srl rd (s.readReg rs1) (s.readReg rs2))

/-- SRA (R140, R148). -/
def execSra (rd rs1 rs2 : RegIdx) (_funct7 : BitVec 7) (s : State) : Outcome State Fault Refusal :=
  .next (s.aluToReg .sra rd (s.readReg rs1) (s.readReg rs2))

/-- OR (R140, R149). -/
def execOr (rd rs1 rs2 : RegIdx) (_funct7 : BitVec 7) (s : State) : Outcome State Fault Refusal :=
  .next (s.aluToReg .or rd (s.readReg rs1) (s.readReg rs2))

/-- AND (R140, R150). -/
def execAnd (rd rs1 rs2 : RegIdx) (_funct7 : BitVec 7) (s : State) : Outcome State Fault Refusal :=
  .next (s.aluToReg .and rd (s.readReg rs1) (s.readReg rs2))

end Sys2Proof.Machine
end

