-- ==== Sys2Proof/Machine/OpImm.lean ====
section
/-! DEFINITION. Machine/OpImm.lean: the meanings of the register-immediate instructions (spec/45_integer_ops.md section 1). -/

namespace Sys2Proof.Machine

open Host (Outcome)

/-- ADDI (R130, R131). -/
def execAddi (rd rs1 : RegIdx) (imm12 : BitVec 12) (s : State) : Outcome State Fault Refusal :=
  .next (s.aluToReg .add rd (s.readReg rs1) (immI imm12))

/-- SLTI (R130, R132). -/
def execSlti (rd rs1 : RegIdx) (imm12 : BitVec 12) (s : State) : Outcome State Fault Refusal :=
  .next (s.aluToReg .slt rd (s.readReg rs1) (immI imm12))

/-- SLTIU (R130, R133). -/
def execSltiu (rd rs1 : RegIdx) (imm12 : BitVec 12) (s : State) : Outcome State Fault Refusal :=
  .next (s.aluToReg .sltu rd (s.readReg rs1) (immI imm12))

/-- XORI (R130, R134). -/
def execXori (rd rs1 : RegIdx) (imm12 : BitVec 12) (s : State) : Outcome State Fault Refusal :=
  .next (s.aluToReg .xor rd (s.readReg rs1) (immI imm12))

/-- ORI (R130, R135). -/
def execOri (rd rs1 : RegIdx) (imm12 : BitVec 12) (s : State) : Outcome State Fault Refusal :=
  .next (s.aluToReg .or rd (s.readReg rs1) (immI imm12))

/-- ANDI (R130, R136). -/
def execAndi (rd rs1 : RegIdx) (imm12 : BitVec 12) (s : State) : Outcome State Fault Refusal :=
  .next (s.aluToReg .and rd (s.readReg rs1) (immI imm12))

/-- SLLI: operand B is the whole `imm_i`, of which the ALU uses the low five bits, the shift amount (R65, R137). -/
def execSlli (rd rs1 : RegIdx) (funct7 : BitVec 7) (shamt : BitVec 5) (s : State) : Outcome State Fault Refusal :=
  .next (s.aluToReg .sll rd (s.readReg rs1) (immI (shiftBits funct7 shamt)))

/-- SRLI: operand B is the whole `imm_i`, of which the ALU uses the low five bits, the shift amount (R65, R138). -/
def execSrli (rd rs1 : RegIdx) (funct7 : BitVec 7) (shamt : BitVec 5) (s : State) : Outcome State Fault Refusal :=
  .next (s.aluToReg .srl rd (s.readReg rs1) (immI (shiftBits funct7 shamt)))

/-- SRAI: operand B is the whole `imm_i`, of which the ALU uses the low five bits, the shift amount (R65, R139). -/
def execSrai (rd rs1 : RegIdx) (funct7 : BitVec 7) (shamt : BitVec 5) (s : State) : Outcome State Fault Refusal :=
  .next (s.aluToReg .sra rd (s.readReg rs1) (immI (shiftBits funct7 shamt)))

end Sys2Proof.Machine
end

