-- ==== Sys2Proof/Machine/Store.lean ====
section
/-! DEFINITION. Machine/Store.lean: the meanings of the stores (spec/44_loads_stores.md section 2). -/

namespace Sys2Proof.Machine

open Host (Outcome)

/-- SB: store byte (R125, R126). -/
def execSb (rs1 rs2 : RegIdx) (imm12 : BitVec 12) (s : State) : Outcome State Fault Refusal :=
  .next (s.store .byte rs1 rs2 imm12)

/-- SH: store halfword (R125, R127). -/
def execSh (rs1 rs2 : RegIdx) (imm12 : BitVec 12) (s : State) : Outcome State Fault Refusal :=
  .next (s.store .half rs1 rs2 imm12)

/-- SW: store word (R125, R128). -/
def execSw (rs1 rs2 : RegIdx) (imm12 : BitVec 12) (s : State) : Outcome State Fault Refusal :=
  .next (s.store .word rs1 rs2 imm12)

/-- STORE with funct3 011: no memory is written (R129). -/
def execStoreReserved011 (rs1 _rs2 : RegIdx) (imm12 : BitVec 12) (s : State) : Outcome State Fault Refusal :=
  .next (s.storeNothing rs1 imm12)

/-- STORE with funct3 100 to 111: no memory is written (R129). -/
def execStoreReserved1xx (_funct3 : BitVec 3) (rs1 _rs2 : RegIdx) (imm12 : BitVec 12) (s : State) : Outcome State Fault Refusal :=
  .next (s.storeNothing rs1 imm12)

end Sys2Proof.Machine
end

