-- ==== Sys2Proof/Machine/System.lean ====
section
/-! DEFINITION. Machine/System.lean: the meanings of SYSTEM, MISC-MEM and unrecognized words: no-ops apart from the
flags, the pc and the cycle counter (spec/46_system_unrecognized.md). -/

namespace Sys2Proof.Machine

open Host (Outcome)

/-- ECALL: no environment is called and nothing traps; the rs1 field is 0 (R152). -/
def execEcall (s : State) : Outcome State Fault Refusal :=
  .next (s.inert 0#5 0#5)

/-- EBREAK: nothing stops; the rs1 field is 0 and the rs2 field 1 (R153). -/
def execEbreak (s : State) : Outcome State Fault Refusal :=
  .next (s.inert 0#5 1#5)

/-- SYSTEM (CSR instructions, MRET, SRET, WFI, ...): no CSR exists, no register is written (R151). -/
def execSystem (_rd rs1 : RegIdx) (_funct3 : BitVec 3) (imm12 : BitVec 12) (s : State) : Outcome State Fault Refusal :=
  .next (s.inert rs1 (imm12.extractLsb' 0 5))

/-- MISC-MEM (FENCE, FENCE.I, ...): an unrecognized opcode; it orders nothing, and nothing needs ordering (R154). -/
def execMiscMem (_rd rs1 : RegIdx) (_funct3 : BitVec 3) (imm12 : BitVec 12) (s : State) : Outcome State Fault Refusal :=
  .next (s.inert rs1 (imm12.extractLsb' 0 5))

/-- Every other opcode: the inert default (R155). -/
def execUnrecognized (word : Word) (s : State) : Outcome State Fault Refusal :=
  .next (s.inert (fieldRs1 word) (fieldRs2 word))

end Sys2Proof.Machine
end

