-- ==== Sys2Proof/Machine/UpperImm.lean ====
section
/-! DEFINITION. Machine/UpperImm.lean: the meanings of LUI and AUIPC (spec/42_upper_immediate.md). -/

namespace Sys2Proof.Machine

open Host (Outcome)

/-- LUI: `x[rd] <- imm_u`; operand A is 0 and PassB gives operand B (R104). -/
def execLui (rd : RegIdx) (imm20 : BitVec 20) (s : State) : Outcome State Fault Refusal :=
  .next (s.aluToReg .passB rd 0#32 (immU imm20))

/-- AUIPC: `x[rd] <- pc + imm_u`, the pc of this instruction (R105). -/
def execAuipc (rd : RegIdx) (imm20 : BitVec 20) (s : State) : Outcome State Fault Refusal :=
  .next (s.aluToReg .add rd s.pc (immU imm20))

end Sys2Proof.Machine
end

