-- ==== Sys2Proof/Machine/Dispatch.lean ====
section
/-! DEFINITION. Machine/Dispatch.lean: which meaning each instruction has (spec/opcode_table.json, in its order). -/

namespace Sys2Proof.Machine

def exec (i : Instr) (s : State) : Host.Outcome State Fault Refusal :=
  match i with
  | .lui rd imm20 => Sys2Proof.Machine.execLui rd imm20 s
  | .auipc rd imm20 => Sys2Proof.Machine.execAuipc rd imm20 s
  | .jal rd off20 => Sys2Proof.Machine.execJal rd off20 s
  | .jalr rd rs1 funct3 imm12 => Sys2Proof.Machine.execJalr rd rs1 funct3 imm12 s
  | .beq rs1 rs2 off12 => Sys2Proof.Machine.execBeq rs1 rs2 off12 s
  | .bne rs1 rs2 off12 => Sys2Proof.Machine.execBne rs1 rs2 off12 s
  | .blt rs1 rs2 off12 => Sys2Proof.Machine.execBlt rs1 rs2 off12 s
  | .bge rs1 rs2 off12 => Sys2Proof.Machine.execBge rs1 rs2 off12 s
  | .bltu rs1 rs2 off12 => Sys2Proof.Machine.execBltu rs1 rs2 off12 s
  | .bgeu rs1 rs2 off12 => Sys2Proof.Machine.execBgeu rs1 rs2 off12 s
  | .branchReserved funct3 rs1 rs2 off12 => Sys2Proof.Machine.execBranchReserved funct3 rs1 rs2 off12 s
  | .lb rd rs1 imm12 => Sys2Proof.Machine.execLb rd rs1 imm12 s
  | .lh rd rs1 imm12 => Sys2Proof.Machine.execLh rd rs1 imm12 s
  | .lw rd rs1 imm12 => Sys2Proof.Machine.execLw rd rs1 imm12 s
  | .lbu rd rs1 imm12 => Sys2Proof.Machine.execLbu rd rs1 imm12 s
  | .lhu rd rs1 imm12 => Sys2Proof.Machine.execLhu rd rs1 imm12 s
  | .loadReserved011 rd rs1 imm12 => Sys2Proof.Machine.execLoadReserved011 rd rs1 imm12 s
  | .loadReserved110 rd rs1 imm12 => Sys2Proof.Machine.execLoadReserved110 rd rs1 imm12 s
  | .loadReserved111 rd rs1 imm12 => Sys2Proof.Machine.execLoadReserved111 rd rs1 imm12 s
  | .sb rs1 rs2 imm12 => Sys2Proof.Machine.execSb rs1 rs2 imm12 s
  | .sh rs1 rs2 imm12 => Sys2Proof.Machine.execSh rs1 rs2 imm12 s
  | .sw rs1 rs2 imm12 => Sys2Proof.Machine.execSw rs1 rs2 imm12 s
  | .storeReserved011 rs1 rs2 imm12 => Sys2Proof.Machine.execStoreReserved011 rs1 rs2 imm12 s
  | .storeReserved1xx funct3 rs1 rs2 imm12 => Sys2Proof.Machine.execStoreReserved1xx funct3 rs1 rs2 imm12 s
  | .addi rd rs1 imm12 => Sys2Proof.Machine.execAddi rd rs1 imm12 s
  | .slti rd rs1 imm12 => Sys2Proof.Machine.execSlti rd rs1 imm12 s
  | .sltiu rd rs1 imm12 => Sys2Proof.Machine.execSltiu rd rs1 imm12 s
  | .xori rd rs1 imm12 => Sys2Proof.Machine.execXori rd rs1 imm12 s
  | .ori rd rs1 imm12 => Sys2Proof.Machine.execOri rd rs1 imm12 s
  | .andi rd rs1 imm12 => Sys2Proof.Machine.execAndi rd rs1 imm12 s
  | .slli rd rs1 funct7 shamt => Sys2Proof.Machine.execSlli rd rs1 funct7 shamt s
  | .srli rd rs1 funct7 shamt => Sys2Proof.Machine.execSrli rd rs1 funct7 shamt s
  | .srai rd rs1 funct7 shamt => Sys2Proof.Machine.execSrai rd rs1 funct7 shamt s
  | .add rd rs1 rs2 funct7 => Sys2Proof.Machine.execAdd rd rs1 rs2 funct7 s
  | .sub rd rs1 rs2 funct7 => Sys2Proof.Machine.execSub rd rs1 rs2 funct7 s
  | .sll rd rs1 rs2 funct7 => Sys2Proof.Machine.execSll rd rs1 rs2 funct7 s
  | .slt rd rs1 rs2 funct7 => Sys2Proof.Machine.execSlt rd rs1 rs2 funct7 s
  | .sltu rd rs1 rs2 funct7 => Sys2Proof.Machine.execSltu rd rs1 rs2 funct7 s
  | .xor rd rs1 rs2 funct7 => Sys2Proof.Machine.execXor rd rs1 rs2 funct7 s
  | .srl rd rs1 rs2 funct7 => Sys2Proof.Machine.execSrl rd rs1 rs2 funct7 s
  | .sra rd rs1 rs2 funct7 => Sys2Proof.Machine.execSra rd rs1 rs2 funct7 s
  | .or rd rs1 rs2 funct7 => Sys2Proof.Machine.execOr rd rs1 rs2 funct7 s
  | .and rd rs1 rs2 funct7 => Sys2Proof.Machine.execAnd rd rs1 rs2 funct7 s
  | .ecall => Sys2Proof.Machine.execEcall s
  | .ebreak => Sys2Proof.Machine.execEbreak s
  | .system rd rs1 funct3 imm12 => Sys2Proof.Machine.execSystem rd rs1 funct3 imm12 s
  | .miscMem rd rs1 funct3 imm12 => Sys2Proof.Machine.execMiscMem rd rs1 funct3 imm12 s
  | .unrecognized word => Sys2Proof.Machine.execUnrecognized word s

end Sys2Proof.Machine
end

