-- ==== Sys2Proof/Machine/Step.lean ====
section
/-! DEFINITION. Machine/Step.lean: one call of `clock()` (spec/41_control_and_cycle.md R100, R101), and the state with
a word placed where the next fetch reads. -/

namespace Sys2Proof.Machine

/-- One cycle: fetch the word at `pc` (R41), decode it (R69), and run it; the instruction's meaning holds steps 3 to
10 of R100. -/
def step (s : State) : Host.Outcome State Fault Refusal := exec (decode (s.fetch s.pc)) s

/-- `s` with an instruction word stored where `step` fetches next: a `load_program` of one word at `pc` (R45; log
entry 17). Bits of `w` above `nbits` are 0. -/
def State.withFetchWord (s : State) (nbits w : Nat) : State :=
  { s with mem := Memory.writeWord s.mem (wordIndex s.memSize s.pc) (BitVec.ofNat 32 (w % 2 ^ nbits)) }

end Sys2Proof.Machine
end

