-- ==== Sys2Proof/Machine/Datapath.lean ====
section
/-! DEFINITION. Machine/Datapath.lean: the core a second time, as its blocks: the control unit's decode table
(spec/41_control_and_cycle.md R91 to R94), operand selection (R95), jump target (R96), write-back (R97), the data
port (spec/20_memory.md R44) and the ten steps of `clock()` (R100). `step` is the same machine instruction by
instruction; that the two agree is an obligation. -/

namespace Sys2Proof.Machine

/-- The control-signal record of one cycle (R91). -/
structure ControlSignals where
  aluOp : AluOp
  aluSrc : Bool
  memRead : Bool
  memWrite : Bool
  memToReg : Bool
  regWrite : Bool
  branch : Bool
  jump : Bool
  deriving DecidableEq, Repr

/-- The inert default of an unrecognized opcode, and the row of SYSTEM: PassA, every other signal false (R92, R94). -/
def inertSignals : ControlSignals := ⟨.passA, false, false, false, false, false, false, false⟩

/-- The ALU operation of OP and OP-IMM, by funct3, instr[30] and whether the opcode is OP (R93). -/
def aluOpOf (isOp f5 : Bool) (funct3 : BitVec 3) : AluOp :=
  match funct3 with
  | 0b000 => if isOp && f5 then .sub else .add
  | 0b001 => .sll
  | 0b010 => .slt
  | 0b011 => .sltu
  | 0b100 => .xor
  | 0b101 => if f5 then .sra else .srl
  | 0b110 => .or
  | _ => .and

/-- The decode table; columns alu_op, alu_src, mem_read, mem_write, mem_to_reg, reg_write, branch, jump (R92). -/
def controlSignals (w : Word) : ControlSignals :=
  match fieldOpcode w with
  | 0b0110111 => ⟨.passB, true, false, false, false, true, false, false⟩     -- LUI
  | 0b0010111 => ⟨.add, true, false, false, false, true, false, false⟩       -- AUIPC
  | 0b1101111 => ⟨.add, false, false, false, false, true, false, true⟩       -- JAL
  | 0b1100111 => ⟨.add, true, false, false, false, true, false, true⟩        -- JALR
  | 0b1100011 => ⟨.sub, false, false, false, false, false, true, false⟩      -- BRANCH
  | 0b0000011 => ⟨.add, true, true, false, true, true, false, false⟩         -- LOAD
  | 0b0100011 => ⟨.add, true, false, true, false, false, false, false⟩       -- STORE
  | 0b0010011 =>                                                              -- OP-IMM
    ⟨aluOpOf false (funct7Bit5 (fieldFunct7 w)) (fieldFunct3 w), true, false, false, false, true, false, false⟩
  | 0b0110011 =>                                                              -- OP
    ⟨aluOpOf true (funct7Bit5 (fieldFunct7 w)) (fieldFunct3 w), false, false, false, false, true, false, false⟩
  | 0b1110011 => inertSignals                                                 -- SYSTEM
  | _ => inertSignals                                                         -- unrecognized

/-- Operand A: 0 for LUI, `pc` for AUIPC, else the first read value (R95). -/
def operandA (d : DecoderOut) (pc v1 : Word) : Word :=
  if d.opcode = 0b0110111 then 0#32 else if d.opcode = 0b0010111 then pc else v1

/-- Operand B: the second read value, or the family's own immediate (R95, D15, conflict C1: log entry 13). -/
def operandB (sig : ControlSignals) (d : DecoderOut) (v2 : Word) : Word :=
  if !sig.aluSrc then v2
  else if d.opcode = 0b0010011 ∨ d.opcode = 0b0000011 ∨ d.opcode = 0b1100111 then d.immI
  else if d.opcode = 0b0100011 then d.immS
  else d.immU

/-- The jump target (R96). -/
def jumpTarget (d : DecoderOut) (pc v1 : Word) : Word :=
  if d.opcode = 0b1101111 then pc + d.immJ
  else if d.opcode = 0b1100111 then (v1 + d.immI) &&& ~~~1#32
  else if d.opcode = 0b1100011 then pc + d.immB
  else pc + 4#32

/-- The width of a load by funct3; 011, 110 and 111 have none (R118). -/
def loadWidth (funct3 : BitVec 3) : Option Width :=
  match funct3 with
  | 0b000 | 0b100 => some .byte
  | 0b001 | 0b101 => some .half
  | 0b010 => some .word
  | _ => none

/-- LB and LH sign-extend: funct3 bit 2 clear (R118). -/
def loadSigned (funct3 : BitVec 3) : Bool := !funct3.getLsbD 2

/-- The width of a store by funct3; 011 to 111 have none (R125). -/
def storeWidth (funct3 : BitVec 3) : Option Width :=
  match funct3 with
  | 0b000 => some .byte
  | 0b001 => some .half
  | 0b010 => some .word
  | _ => none

/-- The data port: `access(read_enable, write_enable, addr, data, width)` (R44). -/
def State.access (s : State) (readEnable writeEnable : Bool) (addr data : Word) (w : Width) : Option Word × State :=
  (if readEnable then s.memRead w addr else none, if writeEnable then s.memWrite w addr data else s)

/-- Step 6: the access if `mem_read` or `mem_write`, and the load value (R100, R118, R125). Without a load the value
is not used. -/
def State.memoryStep (s : State) (sig : ControlSignals) (funct3 : BitVec 3) (addr data : Word) : Word × State :=
  if sig.memRead then
    match loadWidth funct3 with
    | none => s.drawReserved
    | some w =>
      match s.access sig.memRead sig.memWrite addr data w with
      | (some raw, s') => (extendLoad w (loadSigned funct3) raw, s')
      | (none, s') => s'.drawMisaligned
  else if sig.memWrite then
    match storeWidth funct3 with
    | none => (0#32, s)
    | some w => (0#32, (s.access sig.memRead sig.memWrite addr data w).2)
  else (0#32, s)

/-- The write-back value (R97). -/
def writeBack (sig : ControlSignals) (loadValue link aluRes : Word) : Word :=
  if sig.memToReg then loadValue else if sig.jump then link else aluRes

/-- The register file's write port with its enable (R20). -/
def State.writePort (s : State) (rd : RegIdx) (value : Word) (enable : Bool) : State :=
  if enable then s.writeReg rd value else s

/-- One call of `clock()`, its ten steps in order (R100). -/
def clock (s : State) : State :=
  let instr := s.fetch s.pc                                                     -- 1
  let d := decoderOut instr
  let sig := controlSignals instr                                               -- 2
  let v1 := s.readReg d.rs1
  let v2 := s.readReg d.rs2                                                     -- 3
  let a := operandA d s.pc v1
  let b := operandB sig d v2                                                    -- 4
  let result := aluResult sig.aluOp a b
  let s5 := s.setFlags (aluFlags sig.aluOp a b)                                 -- 5
  let mem := s5.memoryStep sig d.funct3 result v2                               -- 6
  let taken := branchCond d.funct3 v1 v2                                        -- 7
  let target := jumpTarget d s.pc v1                                            -- 8
  let s9 := mem.2.writePort d.rd (writeBack sig mem.1 (s.pc + 4#32) result) sig.regWrite   -- 9
  (s9.updatePc (sig.jump || (sig.branch && taken)) target).countCycle           -- 10

end Sys2Proof.Machine
end

