-- ==== Sys2Proof/Machine/HostInterface.lean ====
section
/-! DEFINITION. Machine/HostInterface.lean: what the host may do between cycles (spec/70_reset_and_hazards.md R171 to
R178; spec/20_memory.md R45; spec/41_control_and_cycle.md R102) and the read-only accessors (R177). -/

namespace Sys2Proof.Machine

/-- `reset()`: pc, registers, flags and cycle counter to 0; memory unchanged (R171). The model's own fields stay. -/
def hostReset (s : State) : State :=
  { s with pc := alignPc 0#32, xregs := Vector.replicate 31 0#32, flags := ⟨false, false, false, false⟩, cycleCount := 0#64 }

/-- `set_pc(v)`: `pc <- v & ~3`, nothing else (R176). -/
def hostSetPc (s : State) (v : Word) : State := { s with pc := alignPc v }

/-- One entry of `load_program`: a misaligned address is skipped, another one wraps (R39, R45). -/
def loadEntry (s : State) (entry : Word × Word) : State :=
  if aligned .word entry.1 then { s with mem := Memory.writeWord s.mem (wordIndex s.memSize entry.1) entry.2 } else s

/-- `load_program(entries)`: the entries in order, a later one overwriting an earlier one (R45, D18). -/
def loadProgram (s : State) (entries : List (Word × Word)) : State := entries.foldl loadEntry s

/-- `run_cycles(n)`: `clock()` exactly `n` times, with no early exit (R102). -/
def runCycles : Nat → State → Host.Outcome State Fault Refusal
  | 0, s => .next s
  | n + 1, s =>
    match step s with
    | .next t => runCycles n t
    | .fault r => .fault r
    | .refused r => .refused r

/-- The host's calls that change the core (R175); it may make any of them between two cycles, in any order (D26). -/
inductive HostCommand where
  | clock
  | runCycles (n : Nat)
  | reset
  | loadProgram (entries : List (Word × Word))
  | setPc (v : Word)
  deriving DecidableEq, Repr

/-- What a host command does; `reset`, `load_program` and `set_pc` take no cycle (R171, R175, R176). -/
def hostDo (command : HostCommand) (s : State) : Host.Outcome State Fault Refusal :=
  match command with
  | .clock => step s
  | .runCycles n => runCycles n s
  | .reset => .next (hostReset s)
  | .loadProgram entries => .next (loadProgram s entries)
  | .setPc v => .next (hostSetPc s v)

/-! ### Accessors (R177): none changes the state. `pc`, `cycleCount` and `flags` are the fields, register `i` is
`State.readReg`, the word at an address is `State.wordAt`. -/

/-- The memory snapshot `mem[0..N-1]` (R177). -/
def memorySnapshot (s : State) : List Word := (List.range s.memSize.words).map (Memory.readWord s.mem)

/-- The breakpoint check: is `pc` in the host's set of byte addresses (R175)? -/
def atBreakpoint (addresses : List Word) (s : State) : Bool := addresses.contains s.pc

/-- ABI names in index order, used only for display (R23). -/
def abiNames : List String :=
  ["zero", "ra", "sp", "gp", "tp", "t0", "t1", "t2", "s0", "s1", "a0", "a1", "a2", "a3", "a4", "a5"] ++
  ["a6", "a7", "s2", "s3", "s4", "s5", "s6", "s7", "s8", "s9", "s10", "s11", "t3", "t4", "t5", "t6"]

/-- What one line of the register dump shows: index, ABI name, value, signed value (R177). -/
def registerDumpLine (s : State) (i : RegIdx) : Nat × String × Word × Int :=
  (i.toNat, abiNames.getD i.toNat "", s.readReg i, (s.readReg i).toInt)

end Sys2Proof.Machine
end

