-- ==== Sys2Proof/Safety.lean ====
section
/-! DEFINITION. Safety.lean: the invariant of the machine, and what a statement means by "nothing else changed".
The core has no fault (spec/60_exceptions.md R156), so a run is safe when it stays within the invariant. -/

namespace Sys2Proof.Machine

/-- The invariant: `pc` is a multiple of 4 (R24); memory is canonical and lists only cells of the `N` words (R38). -/
def State.wf (s : State) : Bool :=
  s.pc.extractLsb' 0 2 == 0#2 && Memory.wf s.mem && Memory.below (4 * s.memSize.words) s.mem

/-- Every register except `rd` reads as before. -/
def RegsSameExcept (rd : RegIdx) (s t : State) : Prop := ∀ r : RegIdx, r ≠ rd → t.readReg r = s.readReg r

/-- Every register reads as before. -/
def RegsSame (s t : State) : Prop := ∀ r : RegIdx, t.readReg r = s.readReg r

/-- The byte at every byte address reads as before. -/
def BytesSame (s t : State) : Prop := ∀ a : Word, t.byteAt a = s.byteAt a

/-- The end of an instruction that transfers no control: `pc + 4`, one cycle counted. -/
def Advanced (s t : State) : Prop := t.pc = s.pc + 4#32 ∧ t.cycleCount = s.cycleCount + 1#64

/-- The model's own fields are as before: the configuration, and no free value was drawn. -/
def OwnSame (s t : State) : Prop := t.memSize = s.memSize ∧ t.draws = s.draws

/-- `rd` reads as `value` unless it is register 0, which reads as 0; every other register reads as before (R18, R20). -/
def RegWritten (rd : RegIdx) (value : Word) (s t : State) : Prop :=
  (rd ≠ 0#5 → t.readReg rd = value) ∧ t.readReg 0#5 = 0#32 ∧ RegsSameExcept rd s t

/-! ### Flags as the statements give them, from unsigned and signed values -/

/-- The flags of Add: carry is the unsigned wraparound, overflow a signed sum outside 32 bits (R76, R77). -/
def addFlags (a b : Word) : Flags where
  z := decide (a + b = 0#32)
  c := decide (2 ^ 32 ≤ a.toNat + b.toNat)
  n := decide ((a + b).toInt < 0)
  v := decide (a.toInt + b.toInt < -2 ^ 31 ∨ 2 ^ 31 ≤ a.toInt + b.toInt)

/-- The flags of Sub: carry is the borrow, overflow a signed difference outside 32 bits (R76, R78, D9). -/
def subFlags (a b : Word) : Flags where
  z := decide (a = b)
  c := decide (a.toNat < b.toNat)
  n := decide ((a - b).toInt < 0)
  v := decide (a.toInt - b.toInt < -2 ^ 31 ∨ 2 ^ 31 ≤ a.toInt - b.toInt)

/-- The flags of every other operation: Z and N of the result, C = V = 0 (R76, D8). -/
def resultFlags (r : Word) : Flags where
  z := decide (r = 0#32)
  c := false
  n := decide (r.toInt < 0)
  v := false

/-! ### What an instruction of each shape does, and what it leaves alone -/

/-- `i` completes: `rd` holds `value` and the flags are `f`; every other register, every byte of memory and the model's
own fields are as before. -/
def LeavesResult (i : Instr) (s : State) (rd : RegIdx) (value : Word) (f : Flags) : Prop :=
  ∃ t, exec i s = .next t ∧ RegWritten rd value s t ∧ t.flags = f ∧ BytesSame s t ∧ t.mem = s.mem ∧ OwnSame s t

/-- `i` completes: `rd` holds `value`, the flags are `f`, `pc` and the cycle counter advance; every other register,
every byte of memory and the model's own fields are as before. -/
def WritesRegister (i : Instr) (s : State) (rd : RegIdx) (value : Word) (f : Flags) : Prop :=
  ∃ t, exec i s = .next t ∧ RegWritten rd value s t ∧ t.flags = f ∧ BytesSame s t ∧ t.mem = s.mem ∧ Advanced s t ∧
    OwnSame s t

/-- `i` completes and changes nothing but the flags, `pc` and the cycle counter. -/
def ChangesFlagsOnly (i : Instr) (s : State) (f : Flags) : Prop :=
  ∃ t, exec i s = .next t ∧ RegsSame s t ∧ t.flags = f ∧ BytesSame s t ∧ t.mem = s.mem ∧ Advanced s t ∧ OwnSame s t

/-- `i` completes as a branch: to the masked target if `taken`, else to `pc + 4`; the flags are those of Sub; no
register, no byte of memory and none of the model's own fields changes (R98, R108). -/
def Branches (i : Instr) (s : State) (rs1 rs2 : RegIdx) (off12 : BitVec 12) (taken : Prop) : Prop :=
  ∃ t, exec i s = .next t ∧ (taken → t.pc = (s.pc + immB off12) &&& ~~~3#32) ∧ (¬ taken → t.pc = s.pc + 4#32) ∧
    t.flags = subFlags (s.readReg rs1) (s.readReg rs2) ∧ RegsSame s t ∧ BytesSame s t ∧ t.mem = s.mem ∧
    t.cycleCount = s.cycleCount + 1#64 ∧ OwnSame s t

/-- `i` completes as a load that draws: `rd` holds `value`, one free value is used, the flags are `f`; every other
register and every byte of memory is as before. -/
def DrawsRegister (i : Instr) (s : State) (rd : RegIdx) (value : Word) (f : Flags) : Prop :=
  ∃ t, exec i s = .next t ∧ RegWritten rd value s t ∧ t.flags = f ∧ BytesSame s t ∧ t.mem = s.mem ∧ Advanced s t ∧
    t.memSize = s.memSize ∧ t.draws = s.draws + 1

/-- `i` completes as a store of the low `n` bytes of `v` at `addr`: the `n` cells from the address's cell on hold them,
lowest byte first, and every other byte of memory reads as before; no register changes. -/
def StoresBytes (i : Instr) (s : State) (addr v : Word) (n : Nat) (f : Flags) : Prop :=
  ∃ t, exec i s = .next t ∧ RegsSame s t ∧ t.flags = f ∧ Advanced s t ∧ OwnSame s t ∧
    ∀ b : Word,
      (∀ k, k < n → byteCell s.memSize b = byteCell s.memSize addr + k → t.byteAt b = v.extractLsb' (8 * k) 8) ∧
      ((∀ k, k < n → byteCell s.memSize b ≠ byteCell s.memSize addr + k) → t.byteAt b = s.byteAt b)

/-! ### Kinds of instruction -/

/-- The register an instruction writes, if any: those whose control signals have `reg_write` (R21, R92). -/
def destination : Instr → Option RegIdx
  | .lui rd _ | .auipc rd _ | .jal rd _ | .jalr rd _ _ _ => some rd
  | .beq _ _ _ | .bne _ _ _ | .blt _ _ _ | .bge _ _ _ | .bltu _ _ _ | .bgeu _ _ _ | .branchReserved _ _ _ _ => none
  | .lb rd _ _ | .lh rd _ _ | .lw rd _ _ | .lbu rd _ _ | .lhu rd _ _ => some rd
  | .loadReserved011 rd _ _ | .loadReserved110 rd _ _ | .loadReserved111 rd _ _ => some rd
  | .sb _ _ _ | .sh _ _ _ | .sw _ _ _ | .storeReserved011 _ _ _ | .storeReserved1xx _ _ _ _ => none
  | .addi rd _ _ | .slti rd _ _ | .sltiu rd _ _ | .xori rd _ _ | .ori rd _ _ | .andi rd _ _ => some rd
  | .slli rd _ _ _ | .srli rd _ _ _ | .srai rd _ _ _ => some rd
  | .add rd _ _ _ | .sub rd _ _ _ | .sll rd _ _ _ | .slt rd _ _ _ | .sltu rd _ _ _ => some rd
  | .xor rd _ _ _ | .srl rd _ _ _ | .sra rd _ _ _ | .or rd _ _ _ | .and rd _ _ _ => some rd
  | .ecall | .ebreak | .system _ _ _ _ | .miscMem _ _ _ _ | .unrecognized _ => none

/-- The instructions that can change memory: the three stores of a defined width (R43, R125, R129). -/
def writesMemory : Instr → Bool
  | .sb _ _ _ | .sh _ _ _ | .sw _ _ _ => true
  | _ => false

/-- The instructions that can set `pc` to something else than `pc + 4` (R92 columns branch and jump). -/
def transfersControl : Instr → Bool
  | .jal _ _ | .jalr _ _ _ _ => true
  | .beq _ _ _ | .bne _ _ _ | .blt _ _ _ | .bge _ _ _ | .bltu _ _ _ | .bgeu _ _ _ | .branchReserved _ _ _ _ => true
  | _ => false

end Sys2Proof.Machine
end

