-- ==== Sys2Proof/Certificates/Slice0/Obligations.lean ====
section
/-! DEFINITION. Certificates/Slice0/Obligations.lean: the statements for the provers, from the numbered rules of spec/.
A docstring names the rules; where a rule's text is a choice the spec marks as its own ([decision: D<n>], [derived],
[from general knowledge]), it says so and names the log entry, and the statement's basis is 'derived'. Wherever a statement says what `pc` or the
cycle counter becomes, the wrap of `pc` is decision D11 and the counter's width D12 (log entry 12). -/

open Sys2Proof Sys2Proof.Machine

/-! ## Encoding -/

/-- R58, R60 to R64: the decoder's fields and the bit permutation, extension and range of each immediate. -/
def Obligations.FieldsAndImmediatesOfEveryWord : Prop :=
  ∀ w : Word,
    ((decoderOut w).opcode.toNat = w.toNat % 2 ^ 7 ∧ (decoderOut w).rd.toNat = w.toNat / 2 ^ 7 % 2 ^ 5 ∧
      (decoderOut w).funct3.toNat = w.toNat / 2 ^ 12 % 2 ^ 3 ∧ (decoderOut w).rs1.toNat = w.toNat / 2 ^ 15 % 2 ^ 5 ∧
      (decoderOut w).rs2.toNat = w.toNat / 2 ^ 20 % 2 ^ 5 ∧ (decoderOut w).funct7.toNat = w.toNat / 2 ^ 25 ∧
      funct7Bit5 (decoderOut w).funct7 = w.getLsbD 30) ∧
    (∀ i, i < 32 → (decoderOut w).immI.getLsbD i = if i < 11 then w.getLsbD (i + 20) else w.getLsbD 31) ∧
    (∀ i, i < 32 → (decoderOut w).immS.getLsbD i =
      if i < 5 then w.getLsbD (i + 7) else if i < 11 then w.getLsbD (i + 20) else w.getLsbD 31) ∧
    (∀ i, i < 32 → (decoderOut w).immB.getLsbD i =
      if i = 0 then false else if i < 5 then w.getLsbD (i + 7) else if i < 11 then w.getLsbD (i + 20)
      else if i = 11 then w.getLsbD 7 else w.getLsbD 31) ∧
    (∀ i, i < 32 → (decoderOut w).immU.getLsbD i = if i < 12 then false else w.getLsbD i) ∧
    (∀ i, i < 32 → (decoderOut w).immJ.getLsbD i =
      if i = 0 then false else if i < 11 then w.getLsbD (i + 20) else if i = 11 then w.getLsbD 20
      else if i < 20 then w.getLsbD i else w.getLsbD 31) ∧
    (-2048 ≤ (decoderOut w).immI.toInt ∧ (decoderOut w).immI.toInt ≤ 2047) ∧
    (-2048 ≤ (decoderOut w).immS.toInt ∧ (decoderOut w).immS.toInt ≤ 2047) ∧
    (-4096 ≤ (decoderOut w).immB.toInt ∧ (decoderOut w).immB.toInt ≤ 4094 ∧ (decoderOut w).immB.toInt % 2 = 0) ∧
    (-1048576 ≤ (decoderOut w).immJ.toInt ∧ (decoderOut w).immJ.toInt ≤ 1048574 ∧ (decoderOut w).immJ.toInt % 2 = 0)

/-- R66: for every format, the decoder gives back the fields and the immediate the encoder packed. The packing is the
spec's own inference ([derived]). -/
def Obligations.PackedFormatsRoundTrip : Prop :=
  ∀ (op : BitVec 7) (f3 : BitVec 3) (f7 : BitVec 7) (rd rs1 rs2 : RegIdx) (imm : Word),
    (let d := decoderOut (packR op f3 f7 rd rs1 rs2)
     d.opcode = op ∧ d.funct3 = f3 ∧ d.funct7 = f7 ∧ d.rd = rd ∧ d.rs1 = rs1 ∧ d.rs2 = rs2) ∧
    (-2048 ≤ imm.toInt ∧ imm.toInt ≤ 2047 →
      let d := decoderOut (packI op f3 rd rs1 imm)
      d.opcode = op ∧ d.funct3 = f3 ∧ d.rd = rd ∧ d.rs1 = rs1 ∧ d.immI = imm) ∧
    (-2048 ≤ imm.toInt ∧ imm.toInt ≤ 2047 →
      let d := decoderOut (packS op f3 rs1 rs2 imm)
      d.opcode = op ∧ d.funct3 = f3 ∧ d.rs1 = rs1 ∧ d.rs2 = rs2 ∧ d.immS = imm) ∧
    (-4096 ≤ imm.toInt ∧ imm.toInt ≤ 4094 ∧ imm.toInt % 2 = 0 →
      let d := decoderOut (packB op f3 rs1 rs2 imm)
      d.opcode = op ∧ d.funct3 = f3 ∧ d.rs1 = rs1 ∧ d.rs2 = rs2 ∧ d.immB = imm) ∧
    (imm.toNat % 4096 = 0 →
      let d := decoderOut (packU op rd imm)
      d.opcode = op ∧ d.rd = rd ∧ d.immU = imm) ∧
    (-1048576 ≤ imm.toInt ∧ imm.toInt ≤ 1048574 ∧ imm.toInt % 2 = 0 →
      let d := decoderOut (packJ op rd imm)
      d.opcode = op ∧ d.rd = rd ∧ d.immJ = imm)

/-- R66, R68: decoding the word of a well-formed instruction gives that instruction, every operand at every value. -/
def Obligations.DecodeOfEncodeIsTheInstruction : Prop :=
  ∀ i : Instr, i.wellFormed = true → decode (encode i) = i

/-- R66, R69: every word is the word of the instruction it decodes to, which is well-formed: no bit is lost. -/
def Obligations.EncodeOfDecodeIsTheWord : Prop :=
  ∀ w : Word, encode (decode w) = w ∧ (decode w).wellFormed = true

/-- opcode_table.json with R67 to R69: a word decodes to an instruction whose row matches it; and a word that a row
matches decodes to that row, but for the two rows with rows inside them (SYSTEM, UNRECOGNIZED; log entry 18).
The funct3 values in the rows of BRANCH, LOAD and STORE are decisions D2 and D7 (log entry 6). -/
def Obligations.TableRowsDecodeUnambiguously : Prop :=
  (∀ w : Word, w &&& (tableRow (decode w)).2 = (tableRow (decode w)).1) ∧
  (∀ (j : Instr) (w : Word), tableRow j ≠ (0x00000073#32, 0x0000007F#32) → tableRow j ≠ (0x00000000#32, 0x00000000#32) →
    w &&& (tableRow j).2 = (tableRow j).1 → tableRow (decode w) = tableRow j)

/-- Words the spec writes out with their assembly text (examples of R104 to R154), one or more of each family. The
funct3 values of the BEQ, LW and SB words are decisions D2 and D7 (log entry 6); the names of the ECALL and MISC-MEM
words are general knowledge (log entry 18). -/
def Obligations.SpecExampleWordsDecode : Prop :=
  decode 0x123452B7#32 = .lui 5 0x12345 ∧ decode 0x00001097#32 = .auipc 1 1 ∧
  decode 0x008000EF#32 = .jal 1 4 ∧ decode 0x000280E7#32 = .jalr 1 5 0 0 ∧ decode 0x00208463#32 = .beq 1 2 4 ∧
  decode 0x0040A283#32 = .lw 5 1 4 ∧ decode 0x002080A3#32 = .sb 1 2 1 ∧ decode 0x02A00093#32 = .addi 1 0 42 ∧
  decode 0x4040D113#32 = .srai 2 1 0b0100000 4 ∧ decode 0x40208233#32 = .sub 4 1 2 0b0100000 ∧
  decode 0x00000073#32 = .ecall ∧ decode 0x300092F3#32 = .system 5 1 1 0x300 ∧
  decode 0x0FF0000F#32 = .miscMem 0 0 0 0x0FF ∧ decode 0x00000000#32 = .unrecognized 0

/-! ## The ALU -/

/-- R77: Add's result and flags, V being signed overflow, and which words select it. -/
def Obligations.AluAddResultFlagsAndSelection : Prop :=
  (∀ a b : Word,
    aluResult .add a b = a + b ∧ aluFlags .add a b = addFlags a b ∧
    ((aluFlags .add a b).v = true ↔ a.msb = b.msb ∧ (a + b).msb ≠ a.msb)) ∧
  (∀ w : Word, (controlSignals w).aluOp = .add ↔
    fieldOpcode w = 0b0110011#7 ∧ fieldFunct3 w = 0b000#3 ∧ w.getLsbD 30 = false ∨
    fieldOpcode w = 0b0010011#7 ∧ fieldFunct3 w = 0b000#3 ∨
    fieldOpcode w = 0b0010111#7 ∨ fieldOpcode w = 0b1101111#7 ∨ fieldOpcode w = 0b1100111#7 ∨
    fieldOpcode w = 0b0000011#7 ∨ fieldOpcode w = 0b0100011#7)

/-- R78: Sub's result and flags, and which words select it. The carry as a borrow is the spec's decision D9 and the
overflow condition general knowledge (log entry 10). -/
def Obligations.AluSubResultFlagsAndSelection : Prop :=
  (∀ a b : Word,
    aluResult .sub a b = a - b ∧ aluFlags .sub a b = subFlags a b ∧
    ((aluFlags .sub a b).v = true ↔ a.msb ≠ b.msb ∧ (a - b).msb ≠ a.msb)) ∧
  (∀ w : Word, (controlSignals w).aluOp = .sub ↔
    fieldOpcode w = 0b0110011#7 ∧ fieldFunct3 w = 0b000#3 ∧ w.getLsbD 30 = true ∨ fieldOpcode w = 0b1100011#7)

/-- R79 to R82: And, Or, Xor and Not bit by bit; C = V = 0 is decision D8 (log entry 9), Not's operand D10 (log entry
11); no word selects Not. -/
def Obligations.AluBitwiseResultsAndFlags : Prop :=
  (∀ (a b : Word) (i : Nat), i < 32 →
    (aluResult .and a b).getLsbD i = (a.getLsbD i && b.getLsbD i) ∧
    (aluResult .or a b).getLsbD i = (a.getLsbD i || b.getLsbD i) ∧
    (aluResult .xor a b).getLsbD i = (a.getLsbD i != b.getLsbD i) ∧
    (aluResult .not a b).getLsbD i = !a.getLsbD i) ∧
  (∀ a b : Word,
    aluFlags .and a b = resultFlags (aluResult .and a b) ∧ aluFlags .or a b = resultFlags (aluResult .or a b) ∧
    aluFlags .xor a b = resultFlags (aluResult .xor a b) ∧ aluFlags .not a b = resultFlags (aluResult .not a b)) ∧
  (∀ w : Word, (controlSignals w).aluOp ≠ .not)

/-- R83 to R85: the shifts as arithmetic on the unsigned or signed value, the amount taken modulo 32; C = V = 0 is
decision D8 (log entry 9). -/
def Obligations.AluShiftsAreModulo32 : Prop :=
  ∀ a b : Word,
    (aluResult .sll a b).toNat = a.toNat * 2 ^ (b.toNat % 32) % 2 ^ 32 ∧
    (aluResult .srl a b).toNat = a.toNat / 2 ^ (b.toNat % 32) ∧
    (aluResult .sra a b).toInt = a.toInt / 2 ^ (b.toNat % 32) ∧
    aluFlags .sll a b = resultFlags (aluResult .sll a b) ∧ aluFlags .srl a b = resultFlags (aluResult .srl a b) ∧
    aluFlags .sra a b = resultFlags (aluResult .sra a b)

/-- R86, R87: the comparisons give 1 or 0 and never set N; C = V = 0 is decision D8 (log entry 9). -/
def Obligations.AluComparisonsGiveOneOrZero : Prop :=
  ∀ a b : Word,
    aluResult .slt a b = (if a.toInt < b.toInt then 1#32 else 0#32) ∧
    aluResult .sltu a b = (if a.toNat < b.toNat then 1#32 else 0#32) ∧
    aluFlags .slt a b = ⟨decide (b.toInt ≤ a.toInt), false, false, false⟩ ∧
    aluFlags .sltu a b = ⟨decide (b.toNat ≤ a.toNat), false, false, false⟩

/-- R88, R89: the pass-throughs and who selects them; C = V = 0 is decision D8 (log entry 9). -/
def Obligations.AluPassThroughs : Prop :=
  (∀ a b : Word, aluResult .passA a b = a ∧ aluResult .passB a b = b ∧ aluFlags .passA a b = resultFlags a ∧
    aluFlags .passB a b = resultFlags b) ∧
  (∀ w : Word, (controlSignals w).aluOp = .passB ↔ fieldOpcode w = 0b0110111#7) ∧
  (∀ w : Word, (controlSignals w).aluOp = .passA ↔
    fieldOpcode w = 0b1110011#7 ∨
    fieldOpcode w ∉ [0b0110111#7, 0b0010111#7, 0b1101111#7, 0b1100111#7, 0b1100011#7, 0b0000011#7, 0b0100011#7,
      0b0010011#7, 0b0110011#7, 0b1110011#7])

/-! ## The control unit and the cycle -/

/-- R93, R94: the ALU operation of OP and OP-IMM, and the inert default of an opcode outside the ten, which the decoder
names. -/
def Obligations.AluOperationMappingAndInertDefault : Prop :=
  (∀ w : Word, fieldOpcode w = 0b0110011#7 ∨ fieldOpcode w = 0b0010011#7 →
    (controlSignals w).aluOp =
      if fieldFunct3 w = 0b000#3 then (if fieldOpcode w = 0b0110011#7 ∧ w.getLsbD 30 = true then .sub else .add)
      else if fieldFunct3 w = 0b001#3 then .sll
      else if fieldFunct3 w = 0b010#3 then .slt
      else if fieldFunct3 w = 0b011#3 then .sltu
      else if fieldFunct3 w = 0b100#3 then .xor
      else if fieldFunct3 w = 0b101#3 then (if w.getLsbD 30 = true then .sra else .srl)
      else if fieldFunct3 w = 0b110#3 then .or
      else .and) ∧
  (∀ w : Word, fieldOpcode w ∉ [0b0110111#7, 0b0010111#7, 0b1101111#7, 0b1100111#7, 0b1100011#7, 0b0000011#7,
      0b0100011#7, 0b0010011#7, 0b0110011#7, 0b1110011#7] →
    controlSignals w = ⟨.passA, false, false, false, false, false, false, false⟩ ∧
    (decode w = .unrecognized w ∨
      fieldOpcode w = 0b0001111#7 ∧ decode w = .miscMem (fieldRd w) (fieldRs1 w) (fieldFunct3 w) (bitsI w)))

/-- R92 as a whole-table property: no word both reads and writes memory, none both branches and jumps; a word writes a
register exactly when its instruction has a destination, writes memory exactly when it is a STORE, reads it and writes
it back exactly when it is a LOAD (mem_to_reg is decision D16, log entry 13). -/
def Obligations.ControlSignalsFitTheInstruction : Prop :=
  ∀ w : Word,
    ¬ ((controlSignals w).memRead = true ∧ (controlSignals w).memWrite = true) ∧
    ¬ ((controlSignals w).branch = true ∧ (controlSignals w).jump = true) ∧
    ((controlSignals w).regWrite = true ↔ destination (decode w) ≠ none) ∧
    ((controlSignals w).branch = true ∨ (controlSignals w).jump = true ↔ transfersControl (decode w) = true) ∧
    ((controlSignals w).memWrite = true ↔ fieldOpcode w = 0b0100011#7) ∧
    ((controlSignals w).memRead = true ↔ fieldOpcode w = 0b0000011#7) ∧
    (controlSignals w).memToReg = (controlSignals w).memRead

/-- R100, R101: one step, instruction by instruction, is the ten steps of `clock()` through the control signals, the
ALU, the data port and the write port, in every state. Rests on the spec's decisions D2 to D8 and D15, D16 (log entries
1, 2, 6 to 9 and 13). -/
def Obligations.StepIsTheTenStepCycle : Prop :=
  ∀ s : State, step s = .next (clock s)

/-- R156: no instruction, no operand value and no state stops the core: there is a next state, and only one. -/
def Obligations.EveryInstructionAndStepCompletes : Prop :=
  (∀ (i : Instr) (s : State), ∃ t, ∀ o, exec i s = o ↔ o = .next t) ∧
  (∀ s : State, ∃ t, ∀ o, step s = o ↔ o = .next t) ∧
  (∀ (i : Instr) (s : State) (f : Fault) (r : Refusal), exec i s ≠ .fault f ∧ exec i s ≠ .refused r)

/-- R41, R100: when the word at `pc` decodes to an instruction, the step is that instruction's meaning, with nothing
around it (the meaning itself moves `pc` and counts the cycle). -/
def Obligations.StepRunsTheDecodedInstruction : Prop :=
  ∀ (s : State) (i : Instr), i.wellFormed = true → decode (s.fetch s.pc) = i → step s = exec i s

/-! ## Registers and memory -/

/-- R18, R20: register 0 reads as 0 in every state; the write port writes only when enabled and not register 0, and
then only that register. -/
def Obligations.RegisterZeroAndTheWritePort : Prop :=
  ∀ (s : State) (rd r : RegIdx) (value : Word) (enable : Bool),
    s.readReg 0#5 = 0#32 ∧ (s.writePort 0#5 value enable) = s ∧ (s.writePort rd value false) = s ∧
    (s.writePort rd value enable).readReg r =
      (if enable = true ∧ rd ≠ 0#5 ∧ r = rd then value else s.readReg r) ∧
    { s.writePort rd value enable with xregs := s.xregs } = s

/-- R39: the word of a byte address, and addresses 4N apart reach the same word, for every N. -/
def Obligations.AddressesWrapModuloTheMemorySize : Prop :=
  ∀ (s : State) (a : Word),
    s.wordAt a = Memory.readWord s.mem (a.toNat / 4 % s.memSize.words) ∧ a.toNat / 4 % s.memSize.words < s.memSize.words ∧
    (∀ b : Word, b.toNat = a.toNat + 4 * s.memSize.words → s.wordAt b = s.wordAt a ∧ s.fetch b = s.fetch a)

/-- R40, R42: the data port's reads as bytes, little-endian (decision D1, log entry 5), and Misaligned exactly at the
misaligned addresses; what a misaligned load then receives is D4 (log entry 1). -/
def Obligations.DataReadsAreLittleEndianLanes : Prop :=
  ∀ (s : State) (a : Word),
    s.byteAt a = (s.wordAt a).extractLsb' (8 * (a.toNat % 4)) 8 ∧
    s.memRead .byte a = some ((s.byteAt a).setWidth 32) ∧
    (a.toNat % 2 = 0 → s.memRead .half a = some ((s.byteAt (a + 1#32) ++ s.byteAt a : BitVec 16).setWidth 32)) ∧
    (a.toNat % 2 ≠ 0 → s.memRead .half a = none) ∧
    (a.toNat % 4 = 0 → s.memRead .word a =
      some (wordOfBytes (s.byteAt a) (s.byteAt (a + 1#32)) (s.byteAt (a + 2#32)) (s.byteAt (a + 3#32)))) ∧
    (a.toNat % 4 ≠ 0 → s.memRead .word a = none)

/-- R43: a write changes only the bytes its mask selects, and a misaligned halfword or word write changes nothing
(lane order is decision D1, keeping the drop D21: log entries 5 and 15). -/
def Obligations.DataWritesAreMasked : Prop :=
  ∀ (s : State) (w : Width) (a v b : Word), Memory.wf s.mem = true →
    (a.toNat % widthBytes w ≠ 0 → s.memWrite w a v = s) ∧
    (a.toNat % widthBytes w = 0 →
      (∀ k, k < widthBytes w → byteCell s.memSize b = byteCell s.memSize a + k →
        (s.memWrite w a v).byteAt b = v.extractLsb' (8 * k) 8) ∧
      ((∀ k, k < widthBytes w → byteCell s.memSize b ≠ byteCell s.memSize a + k) →
        (s.memWrite w a v).byteAt b = s.byteAt b)) ∧
    { s.memWrite w a v with mem := s.mem } = s

/-! ## Upper immediates, jumps, branches -/

/-- R104: LUI; operand B is decision D15 (log entry 13), C = V = 0 decision D8 (log entry 9). -/
def Obligations.LuiWritesTheUpperImmediate : Prop :=
  (∀ w : Word, w &&& 0x0000007F#32 = 0x00000037#32 → decode w = .lui (w.extractLsb' 7 5) (w.extractLsb' 12 20)) ∧
  (∀ (rd : RegIdx) (imm20 : BitVec 20) (s : State),
    WritesRegister (.lui rd imm20) s rd (imm20.setWidth 32 <<< 12) (resultFlags (imm20.setWidth 32 <<< 12)))

/-- R105: AUIPC; operand B is decision D15 (log entry 13). -/
def Obligations.AuipcAddsTheUpperImmediateToPc : Prop :=
  (∀ w : Word, w &&& 0x0000007F#32 = 0x00000017#32 → decode w = .auipc (w.extractLsb' 7 5) (w.extractLsb' 12 20)) ∧
  (∀ (rd : RegIdx) (imm20 : BitVec 20) (s : State),
    WritesRegister (.auipc rd imm20) s rd (s.pc + imm20.setWidth 32 <<< 12) (addFlags s.pc (imm20.setWidth 32 <<< 12)))

/-- R106: JAL; that the flags are Add of the registers the immediate bits 19:15 and 24:20 of its word name is the
spec's own inference (log entry 14); that a misaligned target is masked and JAL goes on is decision D20 (log entry 15).
-/
def Obligations.JalLinksAndJumps : Prop :=
  (∀ w : Word, w &&& 0x0000007F#32 = 0x0000006F#32 →
    ∃ off20 : BitVec 20, decode w = .jal (w.extractLsb' 7 5) off20 ∧ immJ off20 = (decoderOut w).immJ) ∧
  (∀ (rd : RegIdx) (off20 : BitVec 20) (s : State) (w : Word), w = encode (.jal rd off20) → ∃ t,
    exec (.jal rd off20) s = .next t ∧ RegWritten rd (s.pc + 4#32) s t ∧ t.pc = (s.pc + immJ off20) &&& ~~~3#32 ∧
    t.flags = addFlags (s.readReg (w.extractLsb' 15 5)) (s.readReg (w.extractLsb' 20 5)) ∧
    BytesSame s t ∧ t.mem = s.mem ∧ t.cycleCount = s.cycleCount + 1#64 ∧ OwnSame s t)

/-- R107: JALR, whatever its funct3; the target uses the register as it was before the link is written. That a
misaligned target is masked and JALR goes on is decision D20 (log entry 15). -/
def Obligations.JalrLinksAndJumps : Prop :=
  (∀ w : Word, w &&& 0x0000007F#32 = 0x00000067#32 →
    decode w = .jalr (w.extractLsb' 7 5) (w.extractLsb' 15 5) (w.extractLsb' 12 3) (w.extractLsb' 20 12)) ∧
  (∀ (rd rs1 : RegIdx) (funct3 : BitVec 3) (imm12 : BitVec 12) (s : State), ∃ t,
    exec (.jalr rd rs1 funct3 imm12) s = .next t ∧ RegWritten rd (s.pc + 4#32) s t ∧
    t.pc = (s.readReg rs1 + imm12.signExtend 32) &&& ~~~3#32 ∧
    t.flags = addFlags (s.readReg rs1) (imm12.signExtend 32) ∧
    BytesSame s t ∧ t.mem = s.mem ∧ t.cycleCount = s.cycleCount + 1#64 ∧ OwnSame s t)

/-- R108 to R116: every branch by its condition; 010 and 011 are never taken. The funct3 values and the reserved ones
are decision D7 (log entries 6 and 7), Sub's C and V decision D9 and conflict C4 (log entry 10), the masked target D20
(log entry 15). -/
def Obligations.BranchesFollowTheirConditions : Prop :=
  ∀ (rs1 rs2 : RegIdx) (off12 : BitVec 12) (s : State),
    Branches (.beq rs1 rs2 off12) s rs1 rs2 off12 (s.readReg rs1 = s.readReg rs2) ∧
    Branches (.bne rs1 rs2 off12) s rs1 rs2 off12 (s.readReg rs1 ≠ s.readReg rs2) ∧
    Branches (.blt rs1 rs2 off12) s rs1 rs2 off12 ((s.readReg rs1).toInt < (s.readReg rs2).toInt) ∧
    Branches (.bge rs1 rs2 off12) s rs1 rs2 off12 ((s.readReg rs2).toInt ≤ (s.readReg rs1).toInt) ∧
    Branches (.bltu rs1 rs2 off12) s rs1 rs2 off12 ((s.readReg rs1).toNat < (s.readReg rs2).toNat) ∧
    Branches (.bgeu rs1 rs2 off12) s rs1 rs2 off12 ((s.readReg rs2).toNat ≤ (s.readReg rs1).toNat) ∧
    Branches (.branchReserved 0b010#3 rs1 rs2 off12) s rs1 rs2 off12 False ∧
    Branches (.branchReserved 0b011#3 rs1 rs2 off12) s rs1 rs2 off12 False

/-- R68, R109, R116, R118, R124, R125, R129: a BRANCH, LOAD or STORE word decodes by its funct3 to the instruction of
its registers and offset. The funct3 values and the reserved ones are decisions D2, D5, D6 and D7 (log entries 2, 6, 7
and 8). -/
def Obligations.BranchLoadStoreWordsDecodeByFunct3 : Prop :=
  (∀ w : Word, fieldOpcode w = 0b1100011#7 → ∃ off12 : BitVec 12, immB off12 = (decoderOut w).immB ∧
    decode w =
      if fieldFunct3 w = 0b000#3 then .beq (fieldRs1 w) (fieldRs2 w) off12
      else if fieldFunct3 w = 0b001#3 then .bne (fieldRs1 w) (fieldRs2 w) off12
      else if fieldFunct3 w = 0b100#3 then .blt (fieldRs1 w) (fieldRs2 w) off12
      else if fieldFunct3 w = 0b101#3 then .bge (fieldRs1 w) (fieldRs2 w) off12
      else if fieldFunct3 w = 0b110#3 then .bltu (fieldRs1 w) (fieldRs2 w) off12
      else if fieldFunct3 w = 0b111#3 then .bgeu (fieldRs1 w) (fieldRs2 w) off12
      else .branchReserved (fieldFunct3 w) (fieldRs1 w) (fieldRs2 w) off12) ∧
  (∀ w : Word, fieldOpcode w = 0b0000011#7 →
    decode w =
      if fieldFunct3 w = 0b000#3 then .lb (fieldRd w) (fieldRs1 w) (w.extractLsb' 20 12)
      else if fieldFunct3 w = 0b001#3 then .lh (fieldRd w) (fieldRs1 w) (w.extractLsb' 20 12)
      else if fieldFunct3 w = 0b010#3 then .lw (fieldRd w) (fieldRs1 w) (w.extractLsb' 20 12)
      else if fieldFunct3 w = 0b100#3 then .lbu (fieldRd w) (fieldRs1 w) (w.extractLsb' 20 12)
      else if fieldFunct3 w = 0b101#3 then .lhu (fieldRd w) (fieldRs1 w) (w.extractLsb' 20 12)
      else if fieldFunct3 w = 0b011#3 then .loadReserved011 (fieldRd w) (fieldRs1 w) (w.extractLsb' 20 12)
      else if fieldFunct3 w = 0b110#3 then .loadReserved110 (fieldRd w) (fieldRs1 w) (w.extractLsb' 20 12)
      else .loadReserved111 (fieldRd w) (fieldRs1 w) (w.extractLsb' 20 12)) ∧
  (∀ w : Word, fieldOpcode w = 0b0100011#7 → ∃ imm12 : BitVec 12, immI imm12 = (decoderOut w).immS ∧
    decode w =
      if fieldFunct3 w = 0b000#3 then .sb (fieldRs1 w) (fieldRs2 w) imm12
      else if fieldFunct3 w = 0b001#3 then .sh (fieldRs1 w) (fieldRs2 w) imm12
      else if fieldFunct3 w = 0b010#3 then .sw (fieldRs1 w) (fieldRs2 w) imm12
      else if fieldFunct3 w = 0b011#3 then .storeReserved011 (fieldRs1 w) (fieldRs2 w) imm12
      else .storeReserved1xx (fieldFunct3 w) (fieldRs1 w) (fieldRs2 w) imm12)

/-- R98, R117: whatever the instruction, `pc` becomes `pc + 4` or a multiple of 4, and only jumps and branches can do
the latter. The pc's width and wrap are decision D11 (log entry 12). -/
def Obligations.TransfersLandOnMultiplesOfFour : Prop :=
  ∀ (i : Instr) (s t : State), exec i s = .next t →
    (t.pc = s.pc + 4#32 ∨ transfersControl i = true ∧ t.pc.toNat % 4 = 0)

/-! ## Loads and stores -/

/-- R118 to R123: LB and LBU at any address, LH and LHU at an even one, LW at a multiple of 4. Extension is decision
D3, the funct3 values D2, the byte order D1 (log entries 5 and 6). -/
def Obligations.AlignedLoadsExtend : Prop :=
  ∀ (rd rs1 : RegIdx) (imm12 : BitVec 12) (s : State) (addr : Word) (f : Flags),
    addr = s.readReg rs1 + imm12.signExtend 32 → f = addFlags (s.readReg rs1) (imm12.signExtend 32) →
    WritesRegister (.lb rd rs1 imm12) s rd ((s.byteAt addr).signExtend 32) f ∧
    WritesRegister (.lbu rd rs1 imm12) s rd ((s.byteAt addr).setWidth 32) f ∧
    (addr.toNat % 2 = 0 →
      WritesRegister (.lh rd rs1 imm12) s rd ((s.byteAt (addr + 1#32) ++ s.byteAt addr : BitVec 16).signExtend 32) f ∧
      WritesRegister (.lhu rd rs1 imm12) s rd ((s.byteAt (addr + 1#32) ++ s.byteAt addr : BitVec 16).setWidth 32) f) ∧
    (addr.toNat % 4 = 0 →
      WritesRegister (.lw rd rs1 imm12) s rd (Memory.readWord s.mem (addr.toNat / 4 % s.memSize.words)) f)

/-- R118, R120, R121, R123: a misaligned LH, LHU or LW completes and receives the free value at the next index
(decision D4, log entry 1); the statement holds for every value of that constant. Which funct3 is which load is decision
D2 (log entry 6). -/
def Obligations.MisalignedLoadsDrawTheirValue : Prop :=
  ∀ (rd rs1 : RegIdx) (imm12 : BitVec 12) (s : State),
    ((s.readReg rs1 + imm12.signExtend 32).toNat % 2 ≠ 0 →
      DrawsRegister (.lh rd rs1 imm12) s rd (Config.misalignedLoadValue s.draws)
        (addFlags (s.readReg rs1) (imm12.signExtend 32)) ∧
      DrawsRegister (.lhu rd rs1 imm12) s rd (Config.misalignedLoadValue s.draws)
        (addFlags (s.readReg rs1) (imm12.signExtend 32))) ∧
    ((s.readReg rs1 + imm12.signExtend 32).toNat % 4 ≠ 0 →
      DrawsRegister (.lw rd rs1 imm12) s rd (Config.misalignedLoadValue s.draws)
        (addFlags (s.readReg rs1) (imm12.signExtend 32)))

/-- R124: a load with a reserved funct3 completes and receives a free value (decision D5, log entry 2). -/
def Obligations.ReservedLoadsDrawTheirValue : Prop :=
  ∀ (rd rs1 : RegIdx) (imm12 : BitVec 12) (s : State) (i : Instr),
    i = .loadReserved011 rd rs1 imm12 ∨ i = .loadReserved110 rd rs1 imm12 ∨ i = .loadReserved111 rd rs1 imm12 →
    DrawsRegister i s rd (Config.reservedLoadValue s.draws) (addFlags (s.readReg rs1) (imm12.signExtend 32))

/-- R125, R126: SB stores the low byte at any address and leaves every other byte (decisions D1, D2; log entries 5
and 6); the address `rs1 + imm_s` is decision D15 (log entry 13). -/
def Obligations.StoreByteWritesOneByte : Prop :=
  ∀ (rs1 rs2 : RegIdx) (imm12 : BitVec 12) (s : State), Memory.wf s.mem = true →
    StoresBytes (.sb rs1 rs2 imm12) s (s.readReg rs1 + imm12.signExtend 32) (s.readReg rs2) 1
      (addFlags (s.readReg rs1) (imm12.signExtend 32))

/-- R125, R127: SH stores two bytes at an even address, and nothing at an odd one (decisions D1, D2, D21; log entries
5, 6 and 15); the address `rs1 + imm_s` is decision D15 (log entry 13). -/
def Obligations.StoreHalfwordWritesTwoBytesOrNone : Prop :=
  ∀ (rs1 rs2 : RegIdx) (imm12 : BitVec 12) (s : State),
    (Memory.wf s.mem = true → (s.readReg rs1 + imm12.signExtend 32).toNat % 2 = 0 →
      StoresBytes (.sh rs1 rs2 imm12) s (s.readReg rs1 + imm12.signExtend 32) (s.readReg rs2) 2
        (addFlags (s.readReg rs1) (imm12.signExtend 32))) ∧
    ((s.readReg rs1 + imm12.signExtend 32).toNat % 2 ≠ 0 →
      ChangesFlagsOnly (.sh rs1 rs2 imm12) s (addFlags (s.readReg rs1) (imm12.signExtend 32)))

/-- R125, R128: SW stores four bytes at a multiple of 4, and nothing elsewhere (decisions D1, D2, D21; log entries 5, 6
and 15); the address `rs1 + imm_s` is decision D15 (log entry 13). -/
def Obligations.StoreWordWritesFourBytesOrNone : Prop :=
  ∀ (rs1 rs2 : RegIdx) (imm12 : BitVec 12) (s : State),
    (Memory.wf s.mem = true → (s.readReg rs1 + imm12.signExtend 32).toNat % 4 = 0 →
      StoresBytes (.sw rs1 rs2 imm12) s (s.readReg rs1 + imm12.signExtend 32) (s.readReg rs2) 4
        (addFlags (s.readReg rs1) (imm12.signExtend 32))) ∧
    ((s.readReg rs1 + imm12.signExtend 32).toNat % 4 ≠ 0 →
      ChangesFlagsOnly (.sw rs1 rs2 imm12) s (addFlags (s.readReg rs1) (imm12.signExtend 32)))

/-- R129: a store with a reserved funct3 writes nothing (decision D6, log entry 8); that its flags are Add of
`rs1` and `imm_s` is decision D15 (log entry 13). -/
def Obligations.ReservedStoresWriteNothing : Prop :=
  ∀ (funct3 : BitVec 3) (rs1 rs2 : RegIdx) (imm12 : BitVec 12) (s : State),
    ChangesFlagsOnly (.storeReserved011 rs1 rs2 imm12) s (addFlags (s.readReg rs1) (imm12.signExtend 32)) ∧
    ChangesFlagsOnly (.storeReserved1xx funct3 rs1 rs2 imm12) s (addFlags (s.readReg rs1) (imm12.signExtend 32))

/-- R55: a word stored over the next instruction is what the next cycle fetches and runs, with no fence. That SW
stores at `rs1 + imm_s` is decision D15 (log entry 13), its width D2 (log entry 6). -/
def Obligations.StoredInstructionRunsNext : Prop :=
  ∀ (rs1 rs2 : RegIdx) (imm12 : BitVec 12) (s : State), Memory.wf s.mem = true →
    (s.readReg rs1 + imm12.signExtend 32).toNat % 4 = 0 →
    (s.readReg rs1 + imm12.signExtend 32).toNat / 4 % s.memSize.words = (s.pc + 4#32).toNat / 4 % s.memSize.words →
    ∃ t, exec (.sw rs1 rs2 imm12) s = .next t ∧ t.fetch t.pc = s.readReg rs2 ∧
      step t = exec (decode (s.readReg rs2)) t

/-! ## Integer instructions -/

/-- R131: ADDI, its encoding, result and flags. What `pc` and the cycle counter become is TransfersLandOnMultiplesOfFour
and CycleCountIsUnobservable. -/
def Obligations.AddiAddsTheImmediate : Prop :=
  (∀ w : Word, w &&& 0x0000707F#32 = 0x00000013#32 →
    decode w = .addi (w.extractLsb' 7 5) (w.extractLsb' 15 5) (w.extractLsb' 20 12)) ∧
  (∀ (rd rs1 : RegIdx) (imm12 : BitVec 12) (s : State),
    LeavesResult (.addi rd rs1 imm12) s rd (s.readReg rs1 + imm12.signExtend 32)
      (addFlags (s.readReg rs1) (imm12.signExtend 32)))

/-- R132 to R136: SLTI, SLTIU, XORI, ORI, ANDI; C = V = 0 is decision D8 (log entry 9). -/
def Obligations.ImmediateComparesAndLogic : Prop :=
  ∀ (rd rs1 : RegIdx) (imm12 : BitVec 12) (s : State) (a b : Word), a = s.readReg rs1 → b = imm12.signExtend 32 →
    WritesRegister (.slti rd rs1 imm12) s rd (if a.toInt < b.toInt then 1#32 else 0#32)
      ⟨decide (b.toInt ≤ a.toInt), false, false, false⟩ ∧
    WritesRegister (.sltiu rd rs1 imm12) s rd (if a.toNat < b.toNat then 1#32 else 0#32)
      ⟨decide (b.toNat ≤ a.toNat), false, false, false⟩ ∧
    WritesRegister (.xori rd rs1 imm12) s rd (a ^^^ b) (resultFlags (a ^^^ b)) ∧
    WritesRegister (.ori rd rs1 imm12) s rd (a ||| b) (resultFlags (a ||| b)) ∧
    WritesRegister (.andi rd rs1 imm12) s rd (a &&& b) (resultFlags (a &&& b))

/-- R137 to R139, R65: SLLI, SRLI, SRAI shift by instr[24:20], whatever the other funct7 bits; C = V = 0 is decision D8
(log entry 9). -/
def Obligations.ImmediateShiftsUseTheShamtField : Prop :=
  ∀ (rd rs1 : RegIdx) (funct7 : BitVec 7) (shamt : BitVec 5) (s : State) (a : Word), a = s.readReg rs1 →
    WritesRegister (.slli rd rs1 funct7 shamt) s rd (a <<< shamt.toNat) (resultFlags (a <<< shamt.toNat)) ∧
    WritesRegister (.srli rd rs1 funct7 shamt) s rd (a >>> shamt.toNat) (resultFlags (a >>> shamt.toNat)) ∧
    WritesRegister (.srai rd rs1 funct7 shamt) s rd (a.sshiftRight shamt.toNat) (resultFlags (a.sshiftRight shamt.toNat))

/-- R141: ADD, its encoding, result and flags. What `pc` and the cycle counter become is TransfersLandOnMultiplesOfFour
and CycleCountIsUnobservable. -/
def Obligations.AddAddsTheRegisters : Prop :=
  (∀ w : Word, w &&& 0x4000707F#32 = 0x00000033#32 →
    decode w = .add (w.extractLsb' 7 5) (w.extractLsb' 15 5) (w.extractLsb' 20 5) (w.extractLsb' 25 7)) ∧
  (∀ (rd rs1 rs2 : RegIdx) (funct7 : BitVec 7) (s : State),
    LeavesResult (.add rd rs1 rs2 funct7) s rd (s.readReg rs1 + s.readReg rs2)
      (addFlags (s.readReg rs1) (s.readReg rs2)))

/-- R142: SUB; the carry as a borrow is decision D9 (log entry 10). -/
def Obligations.SubSubtractsTheRegisters : Prop :=
  (∀ w : Word, w &&& 0x4000707F#32 = 0x40000033#32 →
    decode w = .sub (w.extractLsb' 7 5) (w.extractLsb' 15 5) (w.extractLsb' 20 5) (w.extractLsb' 25 7)) ∧
  (∀ (rd rs1 rs2 : RegIdx) (funct7 : BitVec 7) (s : State),
    WritesRegister (.sub rd rs1 rs2 funct7) s rd (s.readReg rs1 - s.readReg rs2)
      (subFlags (s.readReg rs1) (s.readReg rs2)))

/-- R143, R147, R148: SLL, SRL, SRA shift by the low five bits of the second register; C = V = 0 is decision D8 (log
entry 9). -/
def Obligations.RegisterShiftsAreModulo32 : Prop :=
  ∀ (rd rs1 rs2 : RegIdx) (funct7 : BitVec 7) (s : State) (a : Word) (n : Nat),
    a = s.readReg rs1 → n = (s.readReg rs2).toNat % 32 →
    WritesRegister (.sll rd rs1 rs2 funct7) s rd (a <<< n) (resultFlags (a <<< n)) ∧
    WritesRegister (.srl rd rs1 rs2 funct7) s rd (a >>> n) (resultFlags (a >>> n)) ∧
    WritesRegister (.sra rd rs1 rs2 funct7) s rd (a.sshiftRight n) (resultFlags (a.sshiftRight n))

/-- R144, R145, R146, R149, R150: SLT, SLTU, XOR, OR, AND; C = V = 0 is decision D8 (log entry 9). -/
def Obligations.RegisterComparesAndLogic : Prop :=
  ∀ (rd rs1 rs2 : RegIdx) (funct7 : BitVec 7) (s : State) (a b : Word), a = s.readReg rs1 → b = s.readReg rs2 →
    WritesRegister (.slt rd rs1 rs2 funct7) s rd (if a.toInt < b.toInt then 1#32 else 0#32)
      ⟨decide (b.toInt ≤ a.toInt), false, false, false⟩ ∧
    WritesRegister (.sltu rd rs1 rs2 funct7) s rd (if a.toNat < b.toNat then 1#32 else 0#32)
      ⟨decide (b.toNat ≤ a.toNat), false, false, false⟩ ∧
    WritesRegister (.xor rd rs1 rs2 funct7) s rd (a ^^^ b) (resultFlags (a ^^^ b)) ∧
    WritesRegister (.or rd rs1 rs2 funct7) s rd (a ||| b) (resultFlags (a ||| b)) ∧
    WritesRegister (.and rd rs1 rs2 funct7) s rd (a &&& b) (resultFlags (a &&& b))

/-- R93, R107, R137 to R140: bits the decoder does not examine change nothing: funct7 bits 6 and 4:0 of an OP word
(an M-extension word runs as its base operation), instr[30] too where funct3 is neither 000 nor 101, the same bits of an
immediate shift, and JALR's funct3. -/
def Obligations.UnexaminedBitsChangeNothing : Prop :=
  ∀ (w : Word) (s : State),
    (fieldOpcode w = 0b0110011#7 → exec (decode w) s = exec (decode (w &&& 0x41FFFFFF#32)) s) ∧
    (fieldOpcode w = 0b0110011#7 → fieldFunct3 w ≠ 0b000#3 → fieldFunct3 w ≠ 0b101#3 →
      exec (decode w) s = exec (decode (w &&& 0x01FFFFFF#32)) s) ∧
    (fieldOpcode w = 0b0010011#7 → fieldFunct3 w = 0b001#3 →
      exec (decode w) s = exec (decode (w &&& 0x01FFFFFF#32)) s) ∧
    (fieldOpcode w = 0b0010011#7 → fieldFunct3 w = 0b101#3 →
      exec (decode w) s = exec (decode (w &&& 0x41FFFFFF#32)) s) ∧
    (fieldOpcode w = 0b1100111#7 → exec (decode w) s = exec (decode (w &&& 0xFFFF8FFF#32)) s)

/-! ## SYSTEM, MISC-MEM, unrecognized -/

/-- R151 to R153: every SYSTEM word is a no-op: it sets the flags of PassA of the register its rs1 field names. C = V
= 0 is decision D8 (log entry 9); the words of ECALL and EBREAK are general knowledge (log entry 18). -/
def Obligations.SystemWordsAreNoOps : Prop :=
  (∀ s : State, ChangesFlagsOnly .ecall s ⟨true, false, false, false⟩) ∧
  (∀ s : State, ChangesFlagsOnly .ebreak s ⟨true, false, false, false⟩) ∧
  (∀ (rd rs1 : RegIdx) (funct3 : BitVec 3) (imm12 : BitVec 12) (s : State),
    ChangesFlagsOnly (.system rd rs1 funct3 imm12) s (resultFlags (s.readReg rs1))) ∧
  (∀ (w : Word) (s : State), fieldOpcode w = 0b1110011#7 →
    ChangesFlagsOnly (decode w) s (resultFlags (s.readReg (w.extractLsb' 15 5))))

/-- R154, R155, R69: every word whose opcode is none of the ten (FENCE and FENCE.I among them) is a no-op with the flags
of PassA of the register its rs1 field names. C = V = 0 is decision D8 (log entry 9); the opcode of MISC-MEM is general
knowledge (log entry 18). -/
def Obligations.UnlistedOpcodesAreNoOps : Prop :=
  (∀ (rd rs1 : RegIdx) (funct3 : BitVec 3) (imm12 : BitVec 12) (s : State),
    ChangesFlagsOnly (.miscMem rd rs1 funct3 imm12) s (resultFlags (s.readReg rs1))) ∧
  (∀ (w : Word) (s : State), ChangesFlagsOnly (.unrecognized w) s (resultFlags (s.readReg (w.extractLsb' 15 5)))) ∧
  (∀ (w : Word) (s : State), fieldOpcode w ∉ [0b0110111#7, 0b0010111#7, 0b1101111#7, 0b1100111#7, 0b1100011#7,
      0b0000011#7, 0b0100011#7, 0b0010011#7, 0b0110011#7, 0b1110011#7] →
    ChangesFlagsOnly (decode w) s (resultFlags (s.readReg (w.extractLsb' 15 5))))

/-! ## Whole-machine rules -/

/-- R24, R38: the invariant, pc a multiple of 4 and memory canonical within the N words, is kept by every step from
every state that has it. -/
def Obligations.StepKeepsTheInvariant : Prop :=
  ∀ s t : State, s.wf = true → step s = .next t → t.wf = true

/-- R172, R173: the state after construction has the invariant. -/
def Obligations.ConstructedStateHasTheInvariant : Prop :=
  State.reset.wf = true

/-- R175: every host command, with any argument, keeps the invariant and the configuration; the host's free order of
commands is decision D26 (log entry 16). -/
def Obligations.HostCommandsKeepTheInvariant : Prop :=
  ∀ (command : HostCommand) (s t : State), s.wf = true → hostDo command s = .next t →
    t.wf = true ∧ t.memSize = s.memSize

/-- R92, R125: no instruction but SB, SH and SW changes memory; that a store of funct3 011 to 111 does not is decision
D6 (log entry 8). -/
def Obligations.OnlyStoresChangeMemory : Prop :=
  ∀ (i : Instr) (s t : State), writesMemory i = false → exec i s = .next t → t.mem = s.mem ∧ BytesSame s t

/-- R21: an instruction without `reg_write` changes no register, and one with it changes none but its `rd`. -/
def Obligations.OnlyTheDestinationRegisterChanges : Prop :=
  ∀ (i : Instr) (s t : State), exec i s = .next t →
    (destination i = none → RegsSame s t) ∧ (∀ rd, destination i = some rd → RegsSameExcept rd s t)

/-- R26: no instruction reads the flags: what they held before makes no difference at all (every instruction writes all
four). -/
def Obligations.FlagsAreNeverRead : Prop :=
  ∀ (i : Instr) (s : State) (f : Flags), exec i { s with flags := f } = exec i s

/-- R27, R99, R166: every instruction counts one cycle, and no instruction can read the counter: another count makes no
difference but in the count. Width and wrap are decision D12 (log entry 12). -/
def Obligations.CycleCountIsUnobservable : Prop :=
  ∀ (i : Instr) (s t : State) (n : BitVec 64), exec i s = .next t →
    t.cycleCount = s.cycleCount + 1#64 ∧
    exec i { s with cycleCount := n } = .next { t with cycleCount := n + 1#64 }

/-- R178: at `jal x0, 0` (0x0000006F), with pc aligned and the flags of Add(0, 0), a step changes only the cycle
counter. That JAL writes the flags of Add of the registers its immediate bits name, here x0 and x0, is the spec's own
inference (log entry 14). -/
def Obligations.SelfLoopChangesOnlyTheCycleCount : Prop :=
  ∀ s : State, s.fetch s.pc = 0x0000006F#32 → s.pc.toNat % 4 = 0 → s.flags = ⟨true, false, false, false⟩ →
    step s = .next { s with cycleCount := s.cycleCount + 1#64 }

/-! ## The host interface -/

/-- R171: `reset()`. -/
def Obligations.HostResetZeroesAllButMemory : Prop :=
  ∀ s : State, hostDo .reset s = .next (hostReset s) ∧ (hostReset s).pc = 0#32 ∧
    (∀ r : RegIdx, (hostReset s).readReg r = 0#32) ∧ (hostReset s).flags = ⟨false, false, false, false⟩ ∧
    (hostReset s).cycleCount = 0#64 ∧ (hostReset s).mem = s.mem ∧ (∀ a : Word, (hostReset s).byteAt a = s.byteAt a) ∧
    (hostReset s).fetch (hostReset s).pc = s.wordAt 0#32

/-- R172, R173: the constructed state is `reset()` of itself with every memory byte 0, the latter by decision D13 (log
entry 4). -/
def Obligations.ConstructedStateIsReset : Prop :=
  hostReset State.reset = State.reset ∧ State.reset.pc = 0#32 ∧ (∀ r : RegIdx, State.reset.readReg r = 0#32) ∧
  State.reset.flags = ⟨false, false, false, false⟩ ∧ State.reset.cycleCount = 0#64 ∧
  (∀ a : Word, State.reset.byteAt a = 0#8 ∧ State.reset.wordAt a = 0#32)

/-- R176: `set_pc(v)` masks `v` and changes nothing else; that the host may call it is decision D24 (log entry 16). -/
def Obligations.HostSetPcMasksAndChangesNothingElse : Prop :=
  ∀ (s : State) (v : Word), hostDo (.setPc v) s = .next (hostSetPc s v) ∧
    (hostSetPc s v).pc.toNat = v.toNat / 4 * 4 ∧ { hostSetPc s v with pc := s.pc } = s

/-- R45: `load_program` goes through its entries in order, skips a misaligned one, writes the whole word of another and
leaves every other word; order and wrap are decision D18 (log entry 16). -/
def Obligations.LoadProgramWritesWordsInOrder : Prop :=
  (∀ (s : State) (es fs : List (Word × Word)),
    loadProgram s [] = s ∧ loadProgram s (es ++ fs) = loadProgram (loadProgram s es) fs) ∧
  (∀ (s : State) (a w : Word), a.toNat % 4 ≠ 0 → loadProgram s [(a, w)] = s) ∧
  (∀ (s : State) (a w b : Word), Memory.wf s.mem = true → a.toNat % 4 = 0 →
    (b.toNat / 4 % s.memSize.words = a.toNat / 4 % s.memSize.words → (loadProgram s [(a, w)]).wordAt b = w) ∧
    (b.toNat / 4 % s.memSize.words ≠ a.toNat / 4 % s.memSize.words → (loadProgram s [(a, w)]).wordAt b = s.wordAt b) ∧
    { loadProgram s [(a, w)] with mem := s.mem } = s)

/-- R102, R180: `run_cycles(n)` is `clock()` exactly `n` times, always completes, and counts `n` cycles. -/
def Obligations.RunCyclesIsExactlyNClocks : Prop :=
  (∀ s : State, runCycles 0 s = .next s) ∧
  (∀ (m n : Nat) (s t : State), runCycles m s = .next t → runCycles (m + n) s = runCycles n t) ∧
  (∀ (n : Nat) (s : State), ∃ t, runCycles n s = .next t ∧ t.cycleCount = s.cycleCount + BitVec.ofNat 64 n) ∧
  (∀ s : State, runCycles 1 s = step s)
end

