-- ==== Sys2Proof/Laws/Encoding.lean ====
section
/-! SUPPORT. Laws/Encoding.lean: each packed word bit by bit, each field of each packed word, and each immediate
through its format (spec/30_encoding.md R58 to R66). -/

namespace Sys2Proof

/-! ### Packed words, bit by bit -/

theorem wordOfBytes_getLsbD (b0 b1 b2 b3 : Byte) (i : Nat) :
    (wordOfBytes b0 b1 b2 b3).getLsbD i =
      if i < 8 then b0.getLsbD i else if i < 16 then b1.getLsbD (i - 8)
      else if i < 24 then b2.getLsbD (i - 16) else b3.getLsbD (i - 24) := by
  show BitVec.getLsbD (w := 8 + 8 + 8 + 8) (b3 ++ b2 ++ b1 ++ b0) i = _
  simp only [BitVec.getLsbD_append]
  split_ifs <;> first | omega | rfl

theorem packR_getLsbD (op : BitVec 7) (f3 : BitVec 3) (f7 : BitVec 7) (rd rs1 rs2 : RegIdx) (i : Nat) :
    (packR op f3 f7 rd rs1 rs2).getLsbD i =
      if i < 7 then op.getLsbD i else if i < 12 then rd.getLsbD (i - 7) else if i < 15 then f3.getLsbD (i - 12)
      else if i < 20 then rs1.getLsbD (i - 15) else if i < 25 then rs2.getLsbD (i - 20)
      else f7.getLsbD (i - 25) := by
  show BitVec.getLsbD (w := 7 + 5 + 5 + 3 + 5 + 7) (f7 ++ rs2 ++ rs1 ++ f3 ++ rd ++ op) i = _
  simp only [BitVec.getLsbD_append]
  split_ifs <;> first | omega | rfl

theorem packI_getLsbD (op : BitVec 7) (f3 : BitVec 3) (rd rs1 : RegIdx) (imm : Word) (i : Nat) :
    (packI op f3 rd rs1 imm).getLsbD i =
      if i < 7 then op.getLsbD i else if i < 12 then rd.getLsbD (i - 7) else if i < 15 then f3.getLsbD (i - 12)
      else if i < 20 then rs1.getLsbD (i - 15) else (imm.extractLsb' 0 12).getLsbD (i - 20) := by
  show BitVec.getLsbD (w := 12 + 5 + 3 + 5 + 7) (imm.extractLsb' 0 12 ++ rs1 ++ f3 ++ rd ++ op) i = _
  simp only [BitVec.getLsbD_append]
  split_ifs <;> first | omega | rfl

theorem packS_getLsbD (op : BitVec 7) (f3 : BitVec 3) (rs1 rs2 : RegIdx) (imm : Word) (i : Nat) :
    (packS op f3 rs1 rs2 imm).getLsbD i =
      if i < 7 then op.getLsbD i else if i < 12 then (imm.extractLsb' 0 5).getLsbD (i - 7)
      else if i < 15 then f3.getLsbD (i - 12) else if i < 20 then rs1.getLsbD (i - 15)
      else if i < 25 then rs2.getLsbD (i - 20) else (imm.extractLsb' 5 7).getLsbD (i - 25) := by
  show BitVec.getLsbD (w := 7 + 5 + 5 + 3 + 5 + 7)
    (imm.extractLsb' 5 7 ++ rs2 ++ rs1 ++ f3 ++ imm.extractLsb' 0 5 ++ op) i = _
  simp only [BitVec.getLsbD_append]
  split_ifs <;> first | omega | rfl

theorem packB_getLsbD (op : BitVec 7) (f3 : BitVec 3) (rs1 rs2 : RegIdx) (imm : Word) (i : Nat) :
    (packB op f3 rs1 rs2 imm).getLsbD i =
      if i < 7 then op.getLsbD i else if i < 8 then (imm.extractLsb' 11 1).getLsbD (i - 7)
      else if i < 12 then (imm.extractLsb' 1 4).getLsbD (i - 8) else if i < 15 then f3.getLsbD (i - 12)
      else if i < 20 then rs1.getLsbD (i - 15) else if i < 25 then rs2.getLsbD (i - 20)
      else if i < 31 then (imm.extractLsb' 5 6).getLsbD (i - 25) else (imm.extractLsb' 12 1).getLsbD (i - 31) := by
  show BitVec.getLsbD (w := 1 + 6 + 5 + 5 + 3 + 4 + 1 + 7)
    (imm.extractLsb' 12 1 ++ imm.extractLsb' 5 6 ++ rs2 ++ rs1 ++ f3 ++ imm.extractLsb' 1 4 ++
      imm.extractLsb' 11 1 ++ op) i = _
  simp only [BitVec.getLsbD_append]
  split_ifs <;> first | omega | rfl

theorem packU_getLsbD (op : BitVec 7) (rd : RegIdx) (imm : Word) (i : Nat) :
    (packU op rd imm).getLsbD i =
      if i < 7 then op.getLsbD i else if i < 12 then rd.getLsbD (i - 7)
      else (imm.extractLsb' 12 20).getLsbD (i - 12) := by
  show BitVec.getLsbD (w := 20 + 5 + 7) (imm.extractLsb' 12 20 ++ rd ++ op) i = _
  simp only [BitVec.getLsbD_append]
  split_ifs <;> first | omega | rfl

theorem packJ_getLsbD (op : BitVec 7) (rd : RegIdx) (imm : Word) (i : Nat) :
    (packJ op rd imm).getLsbD i =
      if i < 7 then op.getLsbD i else if i < 12 then rd.getLsbD (i - 7)
      else if i < 20 then (imm.extractLsb' 12 8).getLsbD (i - 12)
      else if i < 21 then (imm.extractLsb' 11 1).getLsbD (i - 20)
      else if i < 31 then (imm.extractLsb' 1 10).getLsbD (i - 21)
      else (imm.extractLsb' 20 1).getLsbD (i - 31) := by
  show BitVec.getLsbD (w := 1 + 10 + 1 + 8 + 5 + 7)
    (imm.extractLsb' 20 1 ++ imm.extractLsb' 1 10 ++ imm.extractLsb' 11 1 ++ imm.extractLsb' 12 8 ++ rd ++ op) i = _
  simp only [BitVec.getLsbD_append]
  split_ifs <;> first | omega | rfl

/-! ### Immediate bits and values, bit by bit -/

theorem bitsS_getLsbD (w : Word) (i : Nat) :
    (bitsS w).getLsbD i = if i < 5 then w.getLsbD (7 + i) else decide (i < 12) && w.getLsbD (20 + i) := by
  show BitVec.getLsbD (w := 7 + 5) (w.extractLsb' 25 7 ++ w.extractLsb' 7 5) i = _
  simp only [BitVec.getLsbD_append, BitVec.getLsbD_extractLsb']
  split_ifs with h
  · simp [h]
  · congr 1
    · simp only [decide_eq_decide]; omega
    · congr 1; omega

theorem bitsB_getLsbD (w : Word) (i : Nat) :
    (bitsB w).getLsbD i =
      if i < 4 then w.getLsbD (8 + i) else if i < 10 then w.getLsbD (21 + i)
      else if i < 11 then w.getLsbD 7 else decide (i < 12) && w.getLsbD 31 := by
  rcases Nat.lt_or_ge i 12 with h | h
  · show BitVec.getLsbD (w := 1 + 1 + 6 + 4)
      (w.extractLsb' 31 1 ++ w.extractLsb' 7 1 ++ w.extractLsb' 25 6 ++ w.extractLsb' 8 4) i = _
    simp only [BitVec.getLsbD_append, BitVec.getLsbD_extractLsb']
    interval_cases i <;> rfl
  · rw [BitVec.getLsbD_of_ge _ _ h, if_neg (by omega), if_neg (by omega), if_neg (by omega)]
    simp [show ¬ i < 12 by omega]

theorem bitsJ_getLsbD (w : Word) (i : Nat) :
    (bitsJ w).getLsbD i =
      if i < 10 then w.getLsbD (21 + i) else if i < 11 then w.getLsbD 20
      else if i < 19 then w.getLsbD (1 + i) else decide (i < 20) && w.getLsbD 31 := by
  rcases Nat.lt_or_ge i 20 with h | h
  · show BitVec.getLsbD (w := 1 + 8 + 1 + 10)
      (w.extractLsb' 31 1 ++ w.extractLsb' 12 8 ++ w.extractLsb' 20 1 ++ w.extractLsb' 21 10) i = _
    simp only [BitVec.getLsbD_append, BitVec.getLsbD_extractLsb']
    interval_cases i <;> rfl
  · rw [BitVec.getLsbD_of_ge _ _ h, if_neg (by omega), if_neg (by omega), if_neg (by omega)]
    simp [show ¬ i < 20 by omega]

theorem immB_getLsbD (o : BitVec 12) (i : Nat) :
    (immB o).getLsbD i = (decide (i < 32) && if i = 0 then false else if i < 13 then o.getLsbD (i - 1) else o.msb) := by
  have hm : (show BitVec (12 + 1) from o ++ 0#1).msb = o.msb := by
    rw [BitVec.msb_append]; simp
  show (BitVec.signExtend 32 (show BitVec (12 + 1) from o ++ 0#1)).getLsbD i = _
  rw [BitVec.getLsbD_signExtend, hm, BitVec.getLsbD_append]
  congr 1
  by_cases h0 : i = 0
  · subst h0; simp
  · simp [h0, show ¬ i < 1 by omega]

theorem immJ_getLsbD (o : BitVec 20) (i : Nat) :
    (immJ o).getLsbD i = (decide (i < 32) && if i = 0 then false else if i < 21 then o.getLsbD (i - 1) else o.msb) := by
  have hm : (show BitVec (20 + 1) from o ++ 0#1).msb = o.msb := by
    rw [BitVec.msb_append]; simp
  show (BitVec.signExtend 32 (show BitVec (20 + 1) from o ++ 0#1)).getLsbD i = _
  rw [BitVec.getLsbD_signExtend, hm, BitVec.getLsbD_append]
  congr 1
  by_cases h0 : i = 0
  · subst h0; simp
  · simp [h0, show ¬ i < 1 by omega]

theorem immU_getLsbD (m : BitVec 20) (i : Nat) :
    (immU m).getLsbD i = if i < 12 then false else m.getLsbD (i - 12) := by
  show BitVec.getLsbD (w := 20 + 12) (m ++ 0#12) i = _
  rw [BitVec.getLsbD_append, BitVec.getLsbD_zero]


/-! ### Fields of a packed word (R58, R66) -/

@[simp] theorem fieldOpcode_packR (op : BitVec 7) (f3 : BitVec 3) (f7 : BitVec 7) (rd rs1 rs2 : RegIdx) :
    fieldOpcode (packR op f3 f7 rd rs1 rs2) = op := by
  refine BitVec.eq_of_getLsbD_eq fun i h => ?_
  simp only [fieldOpcode, BitVec.getLsbD_extractLsb', packR_getLsbD, h, decide_true, Bool.true_and]
  split_ifs <;> first | omega | (congr 1; omega)

@[simp] theorem fieldFunct3_packR (op : BitVec 7) (f3 : BitVec 3) (f7 : BitVec 7) (rd rs1 rs2 : RegIdx) :
    fieldFunct3 (packR op f3 f7 rd rs1 rs2) = f3 := by
  refine BitVec.eq_of_getLsbD_eq fun i h => ?_
  simp only [fieldFunct3, BitVec.getLsbD_extractLsb', packR_getLsbD, h, decide_true, Bool.true_and]
  split_ifs <;> first | omega | (congr 1; omega)

@[simp] theorem fieldFunct7_packR (op : BitVec 7) (f3 : BitVec 3) (f7 : BitVec 7) (rd rs1 rs2 : RegIdx) :
    fieldFunct7 (packR op f3 f7 rd rs1 rs2) = f7 := by
  refine BitVec.eq_of_getLsbD_eq fun i h => ?_
  simp only [fieldFunct7, BitVec.getLsbD_extractLsb', packR_getLsbD, h, decide_true, Bool.true_and]
  split_ifs <;> first | omega | (congr 1; omega)

@[simp] theorem fieldRd_packR (op : BitVec 7) (f3 : BitVec 3) (f7 : BitVec 7) (rd rs1 rs2 : RegIdx) :
    fieldRd (packR op f3 f7 rd rs1 rs2) = rd := by
  refine BitVec.eq_of_getLsbD_eq fun i h => ?_
  simp only [fieldRd, BitVec.getLsbD_extractLsb', packR_getLsbD, h, decide_true, Bool.true_and]
  split_ifs <;> first | omega | (congr 1; omega)

@[simp] theorem fieldRs1_packR (op : BitVec 7) (f3 : BitVec 3) (f7 : BitVec 7) (rd rs1 rs2 : RegIdx) :
    fieldRs1 (packR op f3 f7 rd rs1 rs2) = rs1 := by
  refine BitVec.eq_of_getLsbD_eq fun i h => ?_
  simp only [fieldRs1, BitVec.getLsbD_extractLsb', packR_getLsbD, h, decide_true, Bool.true_and]
  split_ifs <;> first | omega | (congr 1; omega)

@[simp] theorem fieldRs2_packR (op : BitVec 7) (f3 : BitVec 3) (f7 : BitVec 7) (rd rs1 rs2 : RegIdx) :
    fieldRs2 (packR op f3 f7 rd rs1 rs2) = rs2 := by
  refine BitVec.eq_of_getLsbD_eq fun i h => ?_
  simp only [fieldRs2, BitVec.getLsbD_extractLsb', packR_getLsbD, h, decide_true, Bool.true_and]
  split_ifs <;> first | omega | (congr 1; omega)

@[simp] theorem fieldOpcode_packI (op : BitVec 7) (f3 : BitVec 3) (rd rs1 : RegIdx) (imm : Word) :
    fieldOpcode (packI op f3 rd rs1 imm) = op := by
  refine BitVec.eq_of_getLsbD_eq fun i h => ?_
  simp only [fieldOpcode, BitVec.getLsbD_extractLsb', packI_getLsbD, h, decide_true, Bool.true_and]
  split_ifs <;> first | omega | (congr 1; omega)

@[simp] theorem fieldFunct3_packI (op : BitVec 7) (f3 : BitVec 3) (rd rs1 : RegIdx) (imm : Word) :
    fieldFunct3 (packI op f3 rd rs1 imm) = f3 := by
  refine BitVec.eq_of_getLsbD_eq fun i h => ?_
  simp only [fieldFunct3, BitVec.getLsbD_extractLsb', packI_getLsbD, h, decide_true, Bool.true_and]
  split_ifs <;> first | omega | (congr 1; omega)

@[simp] theorem fieldRd_packI (op : BitVec 7) (f3 : BitVec 3) (rd rs1 : RegIdx) (imm : Word) :
    fieldRd (packI op f3 rd rs1 imm) = rd := by
  refine BitVec.eq_of_getLsbD_eq fun i h => ?_
  simp only [fieldRd, BitVec.getLsbD_extractLsb', packI_getLsbD, h, decide_true, Bool.true_and]
  split_ifs <;> first | omega | (congr 1; omega)

@[simp] theorem fieldRs1_packI (op : BitVec 7) (f3 : BitVec 3) (rd rs1 : RegIdx) (imm : Word) :
    fieldRs1 (packI op f3 rd rs1 imm) = rs1 := by
  refine BitVec.eq_of_getLsbD_eq fun i h => ?_
  simp only [fieldRs1, BitVec.getLsbD_extractLsb', packI_getLsbD, h, decide_true, Bool.true_and]
  split_ifs <;> first | omega | (congr 1; omega)

@[simp] theorem fieldOpcode_packS (op : BitVec 7) (f3 : BitVec 3) (rs1 rs2 : RegIdx) (imm : Word) :
    fieldOpcode (packS op f3 rs1 rs2 imm) = op := by
  refine BitVec.eq_of_getLsbD_eq fun i h => ?_
  simp only [fieldOpcode, BitVec.getLsbD_extractLsb', packS_getLsbD, h, decide_true, Bool.true_and]
  split_ifs <;> first | omega | (congr 1; omega)

@[simp] theorem fieldFunct3_packS (op : BitVec 7) (f3 : BitVec 3) (rs1 rs2 : RegIdx) (imm : Word) :
    fieldFunct3 (packS op f3 rs1 rs2 imm) = f3 := by
  refine BitVec.eq_of_getLsbD_eq fun i h => ?_
  simp only [fieldFunct3, BitVec.getLsbD_extractLsb', packS_getLsbD, h, decide_true, Bool.true_and]
  split_ifs <;> first | omega | (congr 1; omega)

@[simp] theorem fieldRs1_packS (op : BitVec 7) (f3 : BitVec 3) (rs1 rs2 : RegIdx) (imm : Word) :
    fieldRs1 (packS op f3 rs1 rs2 imm) = rs1 := by
  refine BitVec.eq_of_getLsbD_eq fun i h => ?_
  simp only [fieldRs1, BitVec.getLsbD_extractLsb', packS_getLsbD, h, decide_true, Bool.true_and]
  split_ifs <;> first | omega | (congr 1; omega)

@[simp] theorem fieldRs2_packS (op : BitVec 7) (f3 : BitVec 3) (rs1 rs2 : RegIdx) (imm : Word) :
    fieldRs2 (packS op f3 rs1 rs2 imm) = rs2 := by
  refine BitVec.eq_of_getLsbD_eq fun i h => ?_
  simp only [fieldRs2, BitVec.getLsbD_extractLsb', packS_getLsbD, h, decide_true, Bool.true_and]
  split_ifs <;> first | omega | (congr 1; omega)

@[simp] theorem fieldOpcode_packB (op : BitVec 7) (f3 : BitVec 3) (rs1 rs2 : RegIdx) (imm : Word) :
    fieldOpcode (packB op f3 rs1 rs2 imm) = op := by
  refine BitVec.eq_of_getLsbD_eq fun i h => ?_
  simp only [fieldOpcode, BitVec.getLsbD_extractLsb', packB_getLsbD, h, decide_true, Bool.true_and]
  split_ifs <;> first | omega | (congr 1; omega)

@[simp] theorem fieldFunct3_packB (op : BitVec 7) (f3 : BitVec 3) (rs1 rs2 : RegIdx) (imm : Word) :
    fieldFunct3 (packB op f3 rs1 rs2 imm) = f3 := by
  refine BitVec.eq_of_getLsbD_eq fun i h => ?_
  simp only [fieldFunct3, BitVec.getLsbD_extractLsb', packB_getLsbD, h, decide_true, Bool.true_and]
  split_ifs <;> first | omega | (congr 1; omega)

@[simp] theorem fieldRs1_packB (op : BitVec 7) (f3 : BitVec 3) (rs1 rs2 : RegIdx) (imm : Word) :
    fieldRs1 (packB op f3 rs1 rs2 imm) = rs1 := by
  refine BitVec.eq_of_getLsbD_eq fun i h => ?_
  simp only [fieldRs1, BitVec.getLsbD_extractLsb', packB_getLsbD, h, decide_true, Bool.true_and]
  split_ifs <;> first | omega | (congr 1; omega)

@[simp] theorem fieldRs2_packB (op : BitVec 7) (f3 : BitVec 3) (rs1 rs2 : RegIdx) (imm : Word) :
    fieldRs2 (packB op f3 rs1 rs2 imm) = rs2 := by
  refine BitVec.eq_of_getLsbD_eq fun i h => ?_
  simp only [fieldRs2, BitVec.getLsbD_extractLsb', packB_getLsbD, h, decide_true, Bool.true_and]
  split_ifs <;> first | omega | (congr 1; omega)

@[simp] theorem fieldOpcode_packU (op : BitVec 7) (rd : RegIdx) (imm : Word) :
    fieldOpcode (packU op rd imm) = op := by
  refine BitVec.eq_of_getLsbD_eq fun i h => ?_
  simp only [fieldOpcode, BitVec.getLsbD_extractLsb', packU_getLsbD, h, decide_true, Bool.true_and]
  split_ifs <;> first | omega | (congr 1; omega)

@[simp] theorem fieldRd_packU (op : BitVec 7) (rd : RegIdx) (imm : Word) :
    fieldRd (packU op rd imm) = rd := by
  refine BitVec.eq_of_getLsbD_eq fun i h => ?_
  simp only [fieldRd, BitVec.getLsbD_extractLsb', packU_getLsbD, h, decide_true, Bool.true_and]
  split_ifs <;> first | omega | (congr 1; omega)

@[simp] theorem fieldOpcode_packJ (op : BitVec 7) (rd : RegIdx) (imm : Word) :
    fieldOpcode (packJ op rd imm) = op := by
  refine BitVec.eq_of_getLsbD_eq fun i h => ?_
  simp only [fieldOpcode, BitVec.getLsbD_extractLsb', packJ_getLsbD, h, decide_true, Bool.true_and]
  split_ifs <;> first | omega | (congr 1; omega)

@[simp] theorem fieldRd_packJ (op : BitVec 7) (rd : RegIdx) (imm : Word) :
    fieldRd (packJ op rd imm) = rd := by
  refine BitVec.eq_of_getLsbD_eq fun i h => ?_
  simp only [fieldRd, BitVec.getLsbD_extractLsb', packJ_getLsbD, h, decide_true, Bool.true_and]
  split_ifs <;> first | omega | (congr 1; omega)

/-! ### Immediates through their formats (R59 to R66) -/

@[simp] theorem bitsI_packI (op : BitVec 7) (f3 : BitVec 3) (rd rs1 : RegIdx) (imm : BitVec 12) :
    bitsI (packI op f3 rd rs1 (immI imm)) = imm := by
  refine BitVec.eq_of_getLsbD_eq fun i h => ?_
  simp only [bitsI, immI, BitVec.getLsbD_extractLsb', packI_getLsbD, BitVec.getLsbD_signExtend]
  interval_cases i <;> simp

@[simp] theorem bitsS_packS (op : BitVec 7) (f3 : BitVec 3) (rs1 rs2 : RegIdx) (imm : BitVec 12) :
    bitsS (packS op f3 rs1 rs2 (immI imm)) = imm := by
  refine BitVec.eq_of_getLsbD_eq fun i h => ?_
  simp only [bitsS_getLsbD, packS_getLsbD, immI, BitVec.getLsbD_extractLsb', BitVec.getLsbD_signExtend]
  interval_cases i <;> simp

@[simp] theorem bitsB_packB (op : BitVec 7) (f3 : BitVec 3) (rs1 rs2 : RegIdx) (off : BitVec 12) :
    bitsB (packB op f3 rs1 rs2 (immB off)) = off := by
  refine BitVec.eq_of_getLsbD_eq fun i h => ?_
  simp only [bitsB_getLsbD, packB_getLsbD, BitVec.getLsbD_extractLsb', immB_getLsbD]
  interval_cases i <;> simp

@[simp] theorem bitsU_packU (op : BitVec 7) (rd : RegIdx) (imm : BitVec 20) :
    bitsU (packU op rd (immU imm)) = imm := by
  refine BitVec.eq_of_getLsbD_eq fun i h => ?_
  simp only [bitsU, BitVec.getLsbD_extractLsb', packU_getLsbD, immU_getLsbD, h, decide_true, Bool.true_and]
  split_ifs <;> first | omega | (simp only [show 12 + i - 12 < 20 by omega, decide_true, Bool.true_and]; congr 1; omega)

@[simp] theorem bitsJ_packJ (op : BitVec 7) (rd : RegIdx) (off : BitVec 20) :
    bitsJ (packJ op rd (immJ off)) = off := by
  refine BitVec.eq_of_getLsbD_eq fun i h => ?_
  simp only [bitsJ_getLsbD, packJ_getLsbD, BitVec.getLsbD_extractLsb', immJ_getLsbD]
  interval_cases i <;> simp

@[simp] theorem fieldFunct7_packI_shift (op : BitVec 7) (f3 : BitVec 3) (rd rs1 : RegIdx) (f7 : BitVec 7)
    (shamt : BitVec 5) : fieldFunct7 (packI op f3 rd rs1 (immI (shiftBits f7 shamt))) = f7 := by
  have hs : ∀ i, i < 7 → (shiftBits f7 shamt).getLsbD (5 + i) = f7.getLsbD i := fun i hi => by
    show BitVec.getLsbD (w := 7 + 5) (f7 ++ shamt) (5 + i) = _
    rw [BitVec.getLsbD_append, if_neg (by omega)]; congr 1; omega
  refine BitVec.eq_of_getLsbD_eq fun i h => ?_
  rw [← hs i h]
  simp only [fieldFunct7, immI, BitVec.getLsbD_extractLsb', packI_getLsbD, BitVec.getLsbD_signExtend, h, decide_true,
    Bool.true_and]
  split_ifs <;> first | omega | skip
  simp [show 25 + i - 20 = 5 + i by omega, show 5 + i < 12 by omega, show 5 + i < 32 by omega]

@[simp] theorem fieldRs2_packI_shift (op : BitVec 7) (f3 : BitVec 3) (rd rs1 : RegIdx) (f7 : BitVec 7)
    (shamt : BitVec 5) : fieldRs2 (packI op f3 rd rs1 (immI (shiftBits f7 shamt))) = shamt := by
  have hs : ∀ i, i < 5 → (shiftBits f7 shamt).getLsbD i = shamt.getLsbD i := fun i hi => by
    show BitVec.getLsbD (w := 7 + 5) (f7 ++ shamt) i = _
    rw [BitVec.getLsbD_append, if_pos hi]
  refine BitVec.eq_of_getLsbD_eq fun i h => ?_
  rw [← hs i h]
  simp only [fieldRs2, immI, BitVec.getLsbD_extractLsb', packI_getLsbD, BitVec.getLsbD_signExtend, h, decide_true,
    Bool.true_and]
  split_ifs <;> first | omega | skip
  simp [show 20 + i - 20 = i by omega, show i < 12 by omega, show i < 32 by omega]

/-! ### A word under the masks of the opcode table, by its fields -/

theorem and_opcode_mask (w : Word) : w &&& 0x0000007F#32 = (fieldOpcode w).setWidth 32 := by
  refine BitVec.eq_of_getLsbD_eq fun i h => ?_
  interval_cases i <;> simp [fieldOpcode]

theorem and_funct3_mask (w : Word) :
    w &&& 0x0000707F#32 = (fieldFunct3 w).setWidth 32 <<< 12 ||| (fieldOpcode w).setWidth 32 := by
  refine BitVec.eq_of_getLsbD_eq fun i h => ?_
  interval_cases i <;> simp [fieldOpcode, fieldFunct3]

theorem and_branchReserved_mask (w : Word) :
    w &&& 0x0000607F#32 = ((fieldFunct3 w &&& 0b110#3).setWidth 32) <<< 12 ||| (fieldOpcode w).setWidth 32 := by
  refine BitVec.eq_of_getLsbD_eq fun i h => ?_
  interval_cases i <;> simp [fieldOpcode, fieldFunct3]

theorem and_storeReserved_mask (w : Word) :
    w &&& 0x0000407F#32 = ((fieldFunct3 w &&& 0b100#3).setWidth 32) <<< 12 ||| (fieldOpcode w).setWidth 32 := by
  refine BitVec.eq_of_getLsbD_eq fun i h => ?_
  interval_cases i <;> simp [fieldOpcode, fieldFunct3]

theorem and_bit30_mask (w : Word) :
    w &&& 0x4000707F#32 =
      (if funct7Bit5 (fieldFunct7 w) then 0x40000000#32 else 0#32) |||
        ((fieldFunct3 w).setWidth 32 <<< 12 ||| (fieldOpcode w).setWidth 32) := by
  have h30 : funct7Bit5 (fieldFunct7 w) = w.getLsbD 30 := by simp [funct7Bit5, fieldFunct7]
  rw [h30]
  refine BitVec.eq_of_getLsbD_eq fun i h => ?_
  cases hb : w.getLsbD 30 <;> interval_cases i <;>
    simp_all [fieldOpcode, fieldFunct3]

end Sys2Proof
end

