-- ==== Sys2Proof/Laws/State.lean ====
section
/-! SUPPORT. Laws/State.lean: one lemma per field per update of the state, and what a register reads after a write. -/

namespace Sys2Proof.Machine

/-! ### setFlags -/
@[simp] theorem setFlags_pc (s : State) (f : Flags) : (s.setFlags f).pc = s.pc := rfl
@[simp] theorem setFlags_xregs (s : State) (f : Flags) : (s.setFlags f).xregs = s.xregs := rfl
@[simp] theorem setFlags_mem (s : State) (f : Flags) : (s.setFlags f).mem = s.mem := rfl
@[simp] theorem setFlags_flags (s : State) (f : Flags) : (s.setFlags f).flags = f := rfl
@[simp] theorem setFlags_cycleCount (s : State) (f : Flags) : (s.setFlags f).cycleCount = s.cycleCount := rfl
@[simp] theorem setFlags_memSize (s : State) (f : Flags) : (s.setFlags f).memSize = s.memSize := rfl
@[simp] theorem setFlags_draws (s : State) (f : Flags) : (s.setFlags f).draws = s.draws := rfl
@[simp] theorem setFlags_readReg (s : State) (f : Flags) (r : RegIdx) : (s.setFlags f).readReg r = s.readReg r := rfl
@[simp] theorem setFlags_byteAt (s : State) (f : Flags) (a : Word) : (s.setFlags f).byteAt a = s.byteAt a := rfl
@[simp] theorem setFlags_wordAt (s : State) (f : Flags) (a : Word) : (s.setFlags f).wordAt a = s.wordAt a := rfl
@[simp] theorem setFlags_memRead (s : State) (f : Flags) (w : Width) (a : Word) :
    (s.setFlags f).memRead w a = s.memRead w a := rfl

/-! ### writeReg -/
@[simp] theorem writeReg_pc (s : State) (rd : RegIdx) (v : Word) : (s.writeReg rd v).pc = s.pc := by
  unfold State.writeReg; split <;> rfl
@[simp] theorem writeReg_mem (s : State) (rd : RegIdx) (v : Word) : (s.writeReg rd v).mem = s.mem := by
  unfold State.writeReg; split <;> rfl
@[simp] theorem writeReg_flags (s : State) (rd : RegIdx) (v : Word) : (s.writeReg rd v).flags = s.flags := by
  unfold State.writeReg; split <;> rfl
@[simp] theorem writeReg_cycleCount (s : State) (rd : RegIdx) (v : Word) :
    (s.writeReg rd v).cycleCount = s.cycleCount := by
  unfold State.writeReg; split <;> rfl
@[simp] theorem writeReg_memSize (s : State) (rd : RegIdx) (v : Word) : (s.writeReg rd v).memSize = s.memSize := by
  unfold State.writeReg; split <;> rfl
@[simp] theorem writeReg_draws (s : State) (rd : RegIdx) (v : Word) : (s.writeReg rd v).draws = s.draws := by
  unfold State.writeReg; split <;> rfl
@[simp] theorem writeReg_byteAt (s : State) (rd : RegIdx) (v a : Word) : (s.writeReg rd v).byteAt a = s.byteAt a := by
  unfold State.writeReg; split <;> rfl
@[simp] theorem writeReg_wordAt (s : State) (rd : RegIdx) (v a : Word) : (s.writeReg rd v).wordAt a = s.wordAt a := by
  unfold State.writeReg; split <;> rfl

/-- Register 0 reads as 0 in every state (R18). -/
@[simp] theorem readReg_zero (s : State) : s.readReg 0#5 = 0#32 := rfl

/-- What a register reads after a write: the value in `rd`, unless `rd` is register 0 (R20). -/
theorem readReg_writeReg (s : State) (rd r : RegIdx) (v : Word) :
    (s.writeReg rd v).readReg r = if r = rd ∧ rd ≠ 0#5 then v else s.readReg r := by
  by_cases hd : rd = 0#5
  · simp [State.writeReg, hd]
  by_cases hr : r = 0#5
  · simp [State.readReg, hr, Ne.symm hd]
  have hd' : rd.toNat ≠ 0 := fun h => hd (BitVec.eq_of_toNat_eq h)
  have hr' : r.toNat ≠ 0 := fun h => hr (BitVec.eq_of_toNat_eq h)
  have hi : (rd.toNat - 1 = r.toNat - 1) ↔ (r = rd) := by rw [BitVec.toNat_eq]; omega
  simp [State.writeReg, State.readReg, hd, hr, Vector.getElem_set, hi]

@[simp] theorem readReg_writeReg_same (s : State) (rd : RegIdx) (v : Word) (h : rd ≠ 0#5) :
    (s.writeReg rd v).readReg rd = v := by
  simp [readReg_writeReg, h]

@[simp] theorem readReg_writeReg_ne (s : State) (rd r : RegIdx) (v : Word) (h : r ≠ rd) :
    (s.writeReg rd v).readReg r = s.readReg r := by
  simp [readReg_writeReg, h]

/-! ### updatePc and countCycle -/
@[simp] theorem updatePc_pc (s : State) (b : Bool) (t : Word) :
    (s.updatePc b t).pc = if b then alignPc t else s.pc + 4#32 := rfl
@[simp] theorem updatePc_xregs (s : State) (b : Bool) (t : Word) : (s.updatePc b t).xregs = s.xregs := rfl
@[simp] theorem updatePc_mem (s : State) (b : Bool) (t : Word) : (s.updatePc b t).mem = s.mem := rfl
@[simp] theorem updatePc_flags (s : State) (b : Bool) (t : Word) : (s.updatePc b t).flags = s.flags := rfl
@[simp] theorem updatePc_cycleCount (s : State) (b : Bool) (t : Word) :
    (s.updatePc b t).cycleCount = s.cycleCount := rfl
@[simp] theorem updatePc_memSize (s : State) (b : Bool) (t : Word) : (s.updatePc b t).memSize = s.memSize := rfl
@[simp] theorem updatePc_draws (s : State) (b : Bool) (t : Word) : (s.updatePc b t).draws = s.draws := rfl
@[simp] theorem updatePc_readReg (s : State) (b : Bool) (t : Word) (r : RegIdx) :
    (s.updatePc b t).readReg r = s.readReg r := rfl
@[simp] theorem updatePc_byteAt (s : State) (b : Bool) (t a : Word) : (s.updatePc b t).byteAt a = s.byteAt a := rfl
@[simp] theorem updatePc_wordAt (s : State) (b : Bool) (t a : Word) : (s.updatePc b t).wordAt a = s.wordAt a := rfl

@[simp] theorem countCycle_pc (s : State) : s.countCycle.pc = s.pc := rfl
@[simp] theorem countCycle_xregs (s : State) : s.countCycle.xregs = s.xregs := rfl
@[simp] theorem countCycle_mem (s : State) : s.countCycle.mem = s.mem := rfl
@[simp] theorem countCycle_flags (s : State) : s.countCycle.flags = s.flags := rfl
@[simp] theorem countCycle_cycleCount (s : State) : s.countCycle.cycleCount = s.cycleCount + 1#64 := rfl
@[simp] theorem countCycle_memSize (s : State) : s.countCycle.memSize = s.memSize := rfl
@[simp] theorem countCycle_draws (s : State) : s.countCycle.draws = s.draws := rfl
@[simp] theorem countCycle_readReg (s : State) (r : RegIdx) : s.countCycle.readReg r = s.readReg r := rfl
@[simp] theorem countCycle_byteAt (s : State) (a : Word) : s.countCycle.byteAt a = s.byteAt a := rfl
@[simp] theorem countCycle_wordAt (s : State) (a : Word) : s.countCycle.wordAt a = s.wordAt a := rfl

/-! ### advance and jumpTo -/
@[simp] theorem advance_pc (s : State) : s.advance.pc = s.pc + 4#32 := rfl
@[simp] theorem advance_xregs (s : State) : s.advance.xregs = s.xregs := rfl
@[simp] theorem advance_mem (s : State) : s.advance.mem = s.mem := rfl
@[simp] theorem advance_flags (s : State) : s.advance.flags = s.flags := rfl
@[simp] theorem advance_cycleCount (s : State) : s.advance.cycleCount = s.cycleCount + 1#64 := rfl
@[simp] theorem advance_memSize (s : State) : s.advance.memSize = s.memSize := rfl
@[simp] theorem advance_draws (s : State) : s.advance.draws = s.draws := rfl
@[simp] theorem advance_readReg (s : State) (r : RegIdx) : s.advance.readReg r = s.readReg r := rfl
@[simp] theorem advance_byteAt (s : State) (a : Word) : s.advance.byteAt a = s.byteAt a := rfl
@[simp] theorem advance_wordAt (s : State) (a : Word) : s.advance.wordAt a = s.wordAt a := rfl

@[simp] theorem jumpTo_pc (s : State) (t : Word) : (s.jumpTo t).pc = alignPc t := rfl
@[simp] theorem jumpTo_xregs (s : State) (t : Word) : (s.jumpTo t).xregs = s.xregs := rfl
@[simp] theorem jumpTo_mem (s : State) (t : Word) : (s.jumpTo t).mem = s.mem := rfl
@[simp] theorem jumpTo_flags (s : State) (t : Word) : (s.jumpTo t).flags = s.flags := rfl
@[simp] theorem jumpTo_cycleCount (s : State) (t : Word) : (s.jumpTo t).cycleCount = s.cycleCount + 1#64 := rfl
@[simp] theorem jumpTo_memSize (s : State) (t : Word) : (s.jumpTo t).memSize = s.memSize := rfl
@[simp] theorem jumpTo_draws (s : State) (t : Word) : (s.jumpTo t).draws = s.draws := rfl
@[simp] theorem jumpTo_readReg (s : State) (t : Word) (r : RegIdx) : (s.jumpTo t).readReg r = s.readReg r := rfl
@[simp] theorem jumpTo_byteAt (s : State) (t a : Word) : (s.jumpTo t).byteAt a = s.byteAt a := rfl
@[simp] theorem jumpTo_wordAt (s : State) (t a : Word) : (s.jumpTo t).wordAt a = s.wordAt a := rfl

/-! ### memWrite: only the memory changes -/
@[simp] theorem memWrite_pc (s : State) (w : Width) (a v : Word) : (s.memWrite w a v).pc = s.pc := by
  unfold State.memWrite; split <;> cases w <;> rfl
@[simp] theorem memWrite_xregs (s : State) (w : Width) (a v : Word) : (s.memWrite w a v).xregs = s.xregs := by
  unfold State.memWrite; split <;> cases w <;> rfl
@[simp] theorem memWrite_flags (s : State) (w : Width) (a v : Word) : (s.memWrite w a v).flags = s.flags := by
  unfold State.memWrite; split <;> cases w <;> rfl
@[simp] theorem memWrite_cycleCount (s : State) (w : Width) (a v : Word) :
    (s.memWrite w a v).cycleCount = s.cycleCount := by
  unfold State.memWrite; split <;> cases w <;> rfl
@[simp] theorem memWrite_memSize (s : State) (w : Width) (a v : Word) : (s.memWrite w a v).memSize = s.memSize := by
  unfold State.memWrite; split <;> cases w <;> rfl
@[simp] theorem memWrite_draws (s : State) (w : Width) (a v : Word) : (s.memWrite w a v).draws = s.draws := by
  unfold State.memWrite; split <;> cases w <;> rfl
@[simp] theorem memWrite_readReg (s : State) (w : Width) (a v : Word) (r : RegIdx) :
    (s.memWrite w a v).readReg r = s.readReg r := by
  simp [State.readReg]

/-! ### what ignores the cycle counter -/
theorem writeReg_withCycleCount (s : State) (n : BitVec 64) (rd : RegIdx) (v : Word) :
    State.writeReg { s with cycleCount := n } rd v = { s.writeReg rd v with cycleCount := n } := by
  unfold State.writeReg; split <;> rfl
theorem memWrite_withCycleCount (s : State) (n : BitVec 64) (w : Width) (a v : Word) :
    State.memWrite { s with cycleCount := n } w a v = { s.memWrite w a v with cycleCount := n } := by
  unfold State.memWrite; split <;> cases w <;> rfl

/-! ### draws: only the index changes -/
@[simp] theorem drawMisaligned_value (s : State) : s.drawMisaligned.1 = Config.misalignedLoadValue s.draws := rfl
@[simp] theorem drawMisaligned_state (s : State) : s.drawMisaligned.2 = { s with draws := s.draws + 1 } := rfl
@[simp] theorem drawReserved_value (s : State) : s.drawReserved.1 = Config.reservedLoadValue s.draws := rfl
@[simp] theorem drawReserved_state (s : State) : s.drawReserved.2 = { s with draws := s.draws + 1 } := rfl
@[simp] theorem withDraws_readReg (s : State) (n : Nat) (r : RegIdx) :
    State.readReg { s with draws := n } r = s.readReg r := rfl
@[simp] theorem withDraws_byteAt (s : State) (n : Nat) (a : Word) :
    State.byteAt { s with draws := n } a = s.byteAt a := rfl

end Sys2Proof.Machine
end

