-- ==== Sys2Proof/Laws/Memory.lean ====
section
/-! SUPPORT. Laws/Memory.lean: the memory operations keep the canonical form, a read after a write gives what was
written, equal reads are equal memories, and the data port as bytes (spec/20_memory.md R39 to R43). -/

namespace Sys2Proof.Machine

/-! ### The canonical list -/

theorem wfFrom_mono {lo lo' : Nat} (h : lo' ≤ lo) {m : Memory} (hm : Memory.wfFrom lo m = true) :
    Memory.wfFrom lo' m = true := by
  cases m with
  | nil => rfl
  | cons p rest =>
    simp only [Memory.wfFrom, Bool.and_eq_true, decide_eq_true_eq] at hm ⊢
    exact ⟨⟨by omega, hm.1.2⟩, hm.2⟩

theorem cons_wfFrom {lo k : Nat} {b : Byte} {rest : Memory} (hk : lo ≤ k)
    (hr : Memory.wfFrom (k + 1) rest = true) : Memory.wfFrom lo (Memory.cons k b rest) = true := by
  unfold Memory.cons
  split
  · exact wfFrom_mono (by omega) hr
  · simp_all [Memory.wfFrom]

theorem writeByte_wfFrom {lo k : Nat} (b : Byte) (hk : lo ≤ k) {m : Memory}
    (hm : Memory.wfFrom lo m = true) : Memory.wfFrom lo (Memory.writeByte m k b) = true := by
  induction m generalizing lo with
  | nil => exact cons_wfFrom hk rfl
  | cons p rest ih =>
    obtain ⟨j, c⟩ := p
    have hm' := hm
    simp only [Memory.wfFrom, Bool.and_eq_true, decide_eq_true_eq] at hm'
    obtain ⟨⟨hj, hc⟩, hrest⟩ := hm'
    unfold Memory.writeByte
    split
    · refine cons_wfFrom hk ?_
      simp only [Memory.wfFrom, Bool.and_eq_true, decide_eq_true_eq]
      exact ⟨⟨by omega, hc⟩, hrest⟩
    · split
      · exact cons_wfFrom hk (wfFrom_mono (by omega) hrest)
      · simp only [Memory.wfFrom, Bool.and_eq_true, decide_eq_true_eq]
        exact ⟨⟨hj, hc⟩, ih (by omega) hrest⟩

/-- A write keeps the canonical form. -/
theorem writeByte_wf (m : Memory) (k : Nat) (b : Byte) (hm : Memory.wf m = true) :
    Memory.wf (Memory.writeByte m k b) = true := writeByte_wfFrom b (Nat.zero_le k) hm

theorem cons_below {n k : Nat} {b : Byte} {rest : Memory} (hk : k < n) (hr : Memory.below n rest = true) :
    Memory.below n (Memory.cons k b rest) = true := by
  unfold Memory.cons
  split
  · exact hr
  · simpa [Memory.below, hk] using hr

/-- A write to one of the first `n` cells lists no other cell. -/
theorem writeByte_below {n k : Nat} (b : Byte) (hk : k < n) {m : Memory} (hm : Memory.below n m = true) :
    Memory.below n (Memory.writeByte m k b) = true := by
  induction m with
  | nil => exact cons_below hk rfl
  | cons p rest ih =>
    obtain ⟨j, c⟩ := p
    have hj : j < n ∧ Memory.below n rest = true := by simpa [Memory.below] using hm
    unfold Memory.writeByte
    split
    · exact cons_below hk hm
    · split
      · exact cons_below hk hj.2
      · simpa [Memory.below, hj.1] using ih hj.2

theorem writeWord_wf (m : Memory) (i : Nat) (v : Word) (hm : Memory.wf m = true) :
    Memory.wf (Memory.writeWord m i v) = true :=
  writeByte_wf _ _ _ (writeByte_wf _ _ _ (writeByte_wf _ _ _ (writeByte_wf _ _ _ hm)))

theorem writeWord_below {n i : Nat} (v : Word) (hi : i < n) {m : Memory} (hm : Memory.below (4 * n) m = true) :
    Memory.below (4 * n) (Memory.writeWord m i v) = true :=
  writeByte_below _ (by omega) (writeByte_below _ (by omega) (writeByte_below _ (by omega)
    (writeByte_below _ (by omega) hm)))

/-! ### Reads -/

theorem readByte_lt {lo k : Nat} (hk : k < lo) {m : Memory} (hm : Memory.wfFrom lo m = true) :
    Memory.readByte m k = Memory.unlisted := by
  induction m generalizing lo with
  | nil => rfl
  | cons p rest ih =>
    obtain ⟨j, c⟩ := p
    simp only [Memory.wfFrom, Bool.and_eq_true, decide_eq_true_eq] at hm
    have : k ≠ j := by omega
    simpa [Memory.readByte, this] using ih (by omega) hm.2

theorem readByte_cons {k k' : Nat} (b : Byte) {rest : Memory} (hr : Memory.wfFrom (k + 1) rest = true) :
    Memory.readByte (Memory.cons k b rest) k' = if k' = k then b else Memory.readByte rest k' := by
  unfold Memory.cons
  split
  · rename_i h
    split
    · rename_i hk
      rw [h, readByte_lt (by omega) hr]
    · rfl
  · rfl

theorem readByte_writeByte_from {lo k k' : Nat} (b : Byte) {m : Memory} (hm : Memory.wfFrom lo m = true) :
    Memory.readByte (Memory.writeByte m k b) k' = if k' = k then b else Memory.readByte m k' := by
  induction m generalizing lo with
  | nil => exact readByte_cons b rfl
  | cons p rest ih =>
    obtain ⟨j, c⟩ := p
    have hm' := hm
    simp only [Memory.wfFrom, Bool.and_eq_true, decide_eq_true_eq] at hm'
    obtain ⟨⟨hj, hc⟩, hrest⟩ := hm'
    unfold Memory.writeByte
    split
    · refine readByte_cons b ?_
      simp only [Memory.wfFrom, Bool.and_eq_true, decide_eq_true_eq]
      exact ⟨⟨by omega, hc⟩, hrest⟩
    · split
      · rename_i h
        subst h
        rw [readByte_cons b hrest]
        simp only [Memory.readByte]
        split <;> rfl
      · simp only [Memory.readByte]
        rw [ih hrest]
        split <;> split <;> first | rfl | omega

/-- A read after a write gives the byte written, and every other cell reads as before. -/
theorem readByte_writeByte (m : Memory) (k k' : Nat) (b : Byte) (hm : Memory.wf m = true) :
    Memory.readByte (Memory.writeByte m k b) k' = if k' = k then b else Memory.readByte m k' :=
  readByte_writeByte_from b hm

theorem eq_of_readByte_from {lo : Nat} {m m' : Memory} (hm : Memory.wfFrom lo m = true)
    (hm' : Memory.wfFrom lo m' = true) (h : ∀ k, Memory.readByte m k = Memory.readByte m' k) : m = m' := by
  induction m generalizing lo m' with
  | nil =>
    cases m' with
    | nil => rfl
    | cons p rest =>
      simp only [Memory.wfFrom, Bool.and_eq_true, bne_iff_ne] at hm'
      exact absurd (by simpa [Memory.readByte] using (h p.1).symm) hm'.1.2
  | cons p rest ih =>
    obtain ⟨j, c⟩ := p
    cases m' with
    | nil =>
      simp only [Memory.wfFrom, Bool.and_eq_true, bne_iff_ne] at hm
      exact absurd (by simpa [Memory.readByte] using h j) hm.1.2
    | cons p' rest' =>
      obtain ⟨j', c'⟩ := p'
      simp only [Memory.wfFrom, Bool.and_eq_true, bne_iff_ne, decide_eq_true_eq] at hm hm'
      have hjj : j = j' := by
        rcases Nat.lt_trichotomy j j' with hlt | heq | hgt
        · have := h j
          rw [show Memory.readByte ((j', c') :: rest') j = Memory.unlisted by
            simp only [Memory.readByte, show j ≠ j' by omega, if_false]
            exact readByte_lt (by omega) hm'.2] at this
          exact absurd (by simpa [Memory.readByte] using this) hm.1.2
        · exact heq
        · have := h j'
          rw [show Memory.readByte ((j, c) :: rest) j' = Memory.unlisted by
            simp only [Memory.readByte, show j' ≠ j by omega, if_false]
            exact readByte_lt (by omega) hm.2] at this
          exact absurd (by simpa [Memory.readByte] using this.symm) hm'.1.2
      subst hjj
      have hcc : c = c' := by simpa [Memory.readByte] using h j
      subst hcc
      refine congrArg ((j, c) :: ·) (ih hm.2 hm'.2 fun k => ?_)
      by_cases hk : k = j
      · subst hk
        rw [readByte_lt (by omega) hm.2, readByte_lt (by omega) hm'.2]
      · simpa [Memory.readByte, hk] using h k

/-- Canonical memories that read alike are the same list. -/
theorem eq_of_readByte {m m' : Memory} (hm : Memory.wf m = true) (hm' : Memory.wf m' = true)
    (h : ∀ k, Memory.readByte m k = Memory.readByte m' k) : m = m' := eq_of_readByte_from hm hm' h

/-! ### Addresses (R39, R40) -/

theorem wordIndex_lt (n : MemSize) (a : Word) : wordIndex n a < n.words := Nat.mod_lt _ n.pos

theorem lane_lt (a : Word) : lane a < 4 := (a.extractLsb' 0 2).isLt

theorem lane_eq (a : Word) : lane a = a.toNat % 4 := by simp [lane]

theorem wordIndex_eq (n : MemSize) (a : Word) : wordIndex n a = a.toNat / 4 % n.words := by
  have := a.isLt
  simp only [wordIndex, BitVec.extractLsb'_toNat, Nat.shiftRight_eq_div_pow]
  rw [Nat.mod_eq_of_lt (b := 2 ^ 30) (by omega)]

theorem byteCell_lt (n : MemSize) (a : Word) : byteCell n a < 4 * n.words := by
  have := wordIndex_lt n a
  have := lane_lt a
  unfold byteCell
  omega

/-! ### The data port -/

/-- A write keeps memory canonical and within the `N` words, aligned or not. -/
theorem memWrite_mem_wf (s : State) (w : Width) (a v : Word) (hm : Memory.wf s.mem = true) :
    Memory.wf (s.memWrite w a v).mem = true := by
  unfold State.memWrite
  split
  · cases w
    · exact writeByte_wf _ _ _ hm
    · exact writeByte_wf _ _ _ (writeByte_wf _ _ _ hm)
    · exact writeWord_wf _ _ _ hm
  · exact hm

/-- An aligned halfword has its second byte in the next cell. -/
theorem lane_add_of_aligned_half {a : Word} (h : aligned .half a = true) : lane a = 0 ∨ lane a = 2 := by
  have h2 : a.extractLsb' 0 1 = 0#1 := by simpa [aligned] using h
  have h3 : a.toNat % 2 = 0 := by simpa using congrArg BitVec.toNat h2
  rw [lane_eq]
  omega

/-- An aligned word starts at lane 0. -/
theorem lane_of_aligned_word {a : Word} (h : aligned .word a = true) : lane a = 0 := by
  have h2 : a.extractLsb' 0 2 = 0#2 := by simpa [aligned] using h
  simp [lane, h2]

theorem memWrite_mem_below (s : State) (w : Width) (a v : Word)
    (hm : Memory.below (4 * s.memSize.words) s.mem = true) :
    Memory.below (4 * s.memSize.words) (s.memWrite w a v).mem = true := by
  have hc := byteCell_lt s.memSize a
  unfold State.memWrite
  split
  · rename_i ha
    cases w
    · exact writeByte_below _ hc hm
    · refine writeByte_below _ ?_ (writeByte_below _ hc hm)
      have := wordIndex_lt s.memSize a
      have := lane_add_of_aligned_half ha
      unfold byteCell
      omega
    · exact writeWord_below _ (wordIndex_lt _ _) hm
  · exact hm

/-- A misaligned halfword or word write changes nothing (R43). -/
theorem memWrite_of_misaligned (s : State) (w : Width) (a v : Word) (h : aligned w a = false) :
    s.memWrite w a v = s := by
  simp [State.memWrite, h]

/-- A read is Misaligned exactly when the address is (R42). -/
theorem memRead_eq_none (s : State) (w : Width) (a : Word) : s.memRead w a = none ↔ aligned w a = false := by
  unfold State.memRead
  split <;> cases w <;> simp_all

end Sys2Proof.Machine
end

