-- ==== Sys2Proof/Laws/DataPort.lean ====
section
/-! SUPPORT. Laws/DataPort.lean: what the data port reads and writes, byte by byte (spec/20_memory.md R40, R42, R43). -/

namespace Sys2Proof.Machine

/-! ### Lanes of a word (R40) -/

theorem wordOfBytes_lane0 (b0 b1 b2 b3 : Byte) : (wordOfBytes b0 b1 b2 b3).extractLsb' 0 8 = b0 := by
  ext i h; simp [wordOfBytes_getLsbD, h]
theorem wordOfBytes_lane1 (b0 b1 b2 b3 : Byte) : (wordOfBytes b0 b1 b2 b3).extractLsb' 8 8 = b1 := by
  ext i h; simp [wordOfBytes_getLsbD, h, show 8 + i < 16 by omega]
theorem wordOfBytes_lane2 (b0 b1 b2 b3 : Byte) : (wordOfBytes b0 b1 b2 b3).extractLsb' 16 8 = b2 := by
  ext i h
  simp [wordOfBytes_getLsbD, h, show ¬ 16 + i < 8 by omega, show 16 + i < 24 by omega]
theorem wordOfBytes_lane3 (b0 b1 b2 b3 : Byte) : (wordOfBytes b0 b1 b2 b3).extractLsb' 24 8 = b3 := by
  ext i h
  simp [wordOfBytes_getLsbD, h, show ¬ 24 + i < 8 by omega, show ¬ 24 + i < 16 by omega]
theorem wordOfBytes_half0 (b0 b1 b2 b3 : Byte) :
    (wordOfBytes b0 b1 b2 b3).extractLsb' 0 16 = (b1 ++ b0 : BitVec 16) := by
  ext i h
  rw [BitVec.getElem_extractLsb', wordOfBytes_getLsbD, Nat.zero_add, ← BitVec.getLsbD_eq_getElem,
    BitVec.getLsbD_append (x := b1) (y := b0)]
  split_ifs <;> rfl
theorem wordOfBytes_half2 (b0 b1 b2 b3 : Byte) :
    (wordOfBytes b0 b1 b2 b3).extractLsb' 16 16 = (b3 ++ b2 : BitVec 16) := by
  ext i h
  rw [BitVec.getElem_extractLsb', wordOfBytes_getLsbD, ← BitVec.getLsbD_eq_getElem,
    BitVec.getLsbD_append (x := b3) (y := b2)]
  split_ifs <;> first | omega | (congr 1; omega)

/-- The four lanes of a word make it again. -/
theorem wordOfBytes_lanes (v : Word) :
    wordOfBytes (v.extractLsb' 0 8) (v.extractLsb' 8 8) (v.extractLsb' 16 8) (v.extractLsb' 24 8) = v := by
  refine BitVec.eq_of_getLsbD_eq fun i h => ?_
  simp only [wordOfBytes_getLsbD, BitVec.getLsbD_extractLsb']
  split_ifs with h1 h2 h3
  · simp [h1]
  · simp [show i - 8 < 8 by omega, show 8 + (i - 8) = i by omega]
  · simp [show i - 16 < 8 by omega, show 16 + (i - 16) = i by omega]
  · simp [show i - 24 < 8 by omega, show 24 + (i - 24) = i by omega]

/-! ### Reads as bytes -/

/-- The byte of a word's lane. -/
theorem wordAt_lane (s : State) (a : Word) : (s.wordAt a).extractLsb' (8 * lane a) 8 = s.byteAt a := by
  unfold State.wordAt State.byteAt byteCell Memory.readWord
  have := lane_lt a
  generalize lane a = k at *
  interval_cases k
  · exact wordOfBytes_lane0 _ _ _ _
  · exact wordOfBytes_lane1 _ _ _ _
  · exact wordOfBytes_lane2 _ _ _ _
  · exact wordOfBytes_lane3 _ _ _ _

/-- The next byte address, within the same word, is the next cell. -/
theorem byteCell_add (n : MemSize) (a : Word) (k : Nat) (h : lane a + k < 4) :
    byteCell n (a + BitVec.ofNat 32 k) = byteCell n a + k := by
  have hb := a.isLt
  rw [lane_eq] at h
  have ha : (a + BitVec.ofNat 32 k).toNat = a.toNat + k := by
    rw [BitVec.toNat_add, BitVec.toNat_ofNat, Nat.mod_eq_of_lt (a := k) (by omega), Nat.mod_eq_of_lt (by omega)]
  unfold byteCell
  rw [wordIndex_eq, wordIndex_eq, lane_eq, lane_eq, ha]
  rw [show (a.toNat + k) / 4 = a.toNat / 4 by omega]
  omega

/-- A byte read, at any address (R42). -/
theorem memRead_byte (s : State) (a : Word) : s.memRead .byte a = some ((s.byteAt a).setWidth 32) := by
  simp [State.memRead, aligned, wordAt_lane]

/-- An aligned halfword read: the byte at the address is the less significant (R40, R42). -/
theorem memRead_half (s : State) (a : Word) (h : aligned .half a = true) :
    s.memRead .half a = some ((s.byteAt (a + 1#32) ++ s.byteAt a : BitVec 16).setWidth 32) := by
  have hl := lane_add_of_aligned_half h
  have hc := byteCell_add s.memSize a 1 (by omega)
  simp only [State.memRead, h, if_true, Option.some.injEq]
  congr 1
  unfold State.wordAt State.byteAt Memory.readWord
  rw [hc]
  unfold byteCell
  rcases hl with hl | hl <;> rw [hl]
  · exact wordOfBytes_half0 _ _ _ _
  · exact wordOfBytes_half2 _ _ _ _

/-- The word at an aligned address, as its four bytes (R40). -/
theorem wordAt_bytes (s : State) (a : Word) (h : aligned .word a = true) :
    s.wordAt a = wordOfBytes (s.byteAt a) (s.byteAt (a + 1#32)) (s.byteAt (a + 2#32)) (s.byteAt (a + 3#32)) := by
  have hl := lane_of_aligned_word h
  have h1 := byteCell_add s.memSize a 1 (by omega)
  have h2 := byteCell_add s.memSize a 2 (by omega)
  have h3 := byteCell_add s.memSize a 3 (by omega)
  unfold State.wordAt State.byteAt Memory.readWord
  rw [h1, h2, h3]
  simp [byteCell, hl]

/-- An aligned word read (R42). -/
theorem memRead_word (s : State) (a : Word) (h : aligned .word a = true) :
    s.memRead .word a = some (s.wordAt a) := by
  simp [State.memRead, h]

/-! ### Writes as bytes -/

/-- What a cell holds after the data port's write: the stored byte in the cells the width covers from an aligned
address on, what it held before everywhere else (R43). -/
theorem readByte_memWrite (s : State) (w : Width) (a v : Word) (k : Nat) (hm : Memory.wf s.mem = true) :
    Memory.readByte (s.memWrite w a v).mem k =
      if aligned w a = true ∧ byteCell s.memSize a ≤ k ∧ k < byteCell s.memSize a + widthBytes w
      then v.extractLsb' (8 * (k - byteCell s.memSize a)) 8
      else Memory.readByte s.mem k := by
  by_cases ha : aligned w a = true
  · simp only [State.memWrite, ha, if_true, true_and]
    cases w
    · rw [show widthBytes .byte = 1 from rfl, readByte_writeByte _ _ _ _ hm]
      by_cases hk : k = byteCell s.memSize a
      · simp [hk]
      · rw [if_neg hk, if_neg (by omega)]
    · rw [show widthBytes .half = 2 from rfl, readByte_writeByte _ _ _ _ (writeByte_wf _ _ _ hm), readByte_writeByte _ _ _ _ hm]
      split_ifs with h1 h2 h2 h3 h3
      · subst h1; simp
      · omega
      · subst h2; simp
      · omega
      · omega
      · rfl
    · have hc : byteCell s.memSize a = 4 * wordIndex s.memSize a := by
        simp [byteCell, lane_of_aligned_word ha]
      rw [hc]
      generalize wordIndex s.memSize a = i
      simp only [Memory.writeWord]
      rw [show widthBytes .word = 4 from rfl, readByte_writeByte _ _ _ _ (writeByte_wf _ _ _ (writeByte_wf _ _ _ (writeByte_wf _ _ _ hm))),
        readByte_writeByte _ _ _ _ (writeByte_wf _ _ _ (writeByte_wf _ _ _ hm)),
        readByte_writeByte _ _ _ _ (writeByte_wf _ _ _ hm), readByte_writeByte _ _ _ _ hm]
      by_cases h : 4 * i ≤ k ∧ k < 4 * i + 4
      · rw [if_pos h]
        obtain ⟨j, hj, rfl⟩ : ∃ j, j < 4 ∧ k = 4 * i + j := ⟨k - 4 * i, by omega, by omega⟩
        interval_cases j <;> simp
      · rw [if_neg h, if_neg (by omega), if_neg (by omega), if_neg (by omega), if_neg (by omega)]
  · rw [memWrite_of_misaligned _ _ _ _ (by simpa using ha), if_neg (fun h => ha h.1)]

/-- The word an aligned word write leaves: the value written (R43). -/
theorem wordAt_memWrite_word (s : State) (a b v : Word) (h : aligned .word a = true)
    (hi : wordIndex s.memSize b = wordIndex s.memSize a) (hm : Memory.wf s.mem = true) :
    (s.memWrite .word a v).wordAt b = v := by
  have hc : byteCell s.memSize a = 4 * wordIndex s.memSize a := by
    simp [byteCell, lane_of_aligned_word h]
  unfold State.wordAt Memory.readWord
  simp only [memWrite_memSize, hi, readByte_memWrite _ _ _ _ _ hm, hc, h, widthBytes]
  simp [wordOfBytes_lanes]

end Sys2Proof.Machine
end

