-- ==== Sys2Proof/Laws/PerInstr.lean ====
section
/-! SUPPORT. Laws/PerInstr.lean: per instruction, the encoded word is one that the instruction's row of
spec/opcode_table.json matches. -/

namespace Sys2Proof.Laws

/-- The word of a well-formed instruction has, under its row's mask, its row's match value. -/
def EncodesItsRow.Statement (i : Instr) : Prop :=
  i.wellFormed = true → encode i &&& (tableRow i).2 = (tableRow i).1

theorem row_opcode {w : Word} {o : BitVec 7} (ho : fieldOpcode w = o) : w &&& 0x0000007F#32 = o.setWidth 32 := by
  rw [and_opcode_mask, ho]

theorem row_funct3 {w : Word} {o : BitVec 7} {f : BitVec 3} (ho : fieldOpcode w = o) (hf : fieldFunct3 w = f) :
    w &&& 0x0000707F#32 = f.setWidth 32 <<< 12 ||| o.setWidth 32 := by
  rw [and_funct3_mask, ho, hf]

theorem row_branchReserved {w : Word} {o : BitVec 7} {f : BitVec 3} (ho : fieldOpcode w = o) (hf : fieldFunct3 w = f) :
    w &&& 0x0000607F#32 = ((f &&& 0b110#3).setWidth 32) <<< 12 ||| o.setWidth 32 := by
  rw [and_branchReserved_mask, ho, hf]

theorem row_storeReserved {w : Word} {o : BitVec 7} {f : BitVec 3} (ho : fieldOpcode w = o) (hf : fieldFunct3 w = f) :
    w &&& 0x0000407F#32 = ((f &&& 0b100#3).setWidth 32) <<< 12 ||| o.setWidth 32 := by
  rw [and_storeReserved_mask, ho, hf]

theorem row_bit30 {w : Word} {o : BitVec 7} {f : BitVec 3} {f7 : BitVec 7} {b : Bool} (ho : fieldOpcode w = o)
    (hf : fieldFunct3 w = f) (h7 : fieldFunct7 w = f7) (hb : funct7Bit5 f7 = b) :
    w &&& 0x4000707F#32 = (if b then 0x40000000#32 else 0#32) ||| (f.setWidth 32 <<< 12 ||| o.setWidth 32) := by
  rw [and_bit30_mask, ho, hf, h7, hb]

theorem EncodesItsRow.lui (rd : RegIdx) (imm20 : BitVec 20) :
    EncodesItsRow.Statement (.lui rd imm20) :=
  fun _ => row_opcode (fieldOpcode_packU ..)

theorem EncodesItsRow.auipc (rd : RegIdx) (imm20 : BitVec 20) :
    EncodesItsRow.Statement (.auipc rd imm20) :=
  fun _ => row_opcode (fieldOpcode_packU ..)

theorem EncodesItsRow.jal (rd : RegIdx) (off20 : BitVec 20) :
    EncodesItsRow.Statement (.jal rd off20) :=
  fun _ => row_opcode (fieldOpcode_packJ ..)

theorem EncodesItsRow.jalr (rd rs1 : RegIdx) (funct3 : BitVec 3) (imm12 : BitVec 12) :
    EncodesItsRow.Statement (.jalr rd rs1 funct3 imm12) :=
  fun _ => row_opcode (fieldOpcode_packI ..)

theorem EncodesItsRow.beq (rs1 rs2 : RegIdx) (off12 : BitVec 12) :
    EncodesItsRow.Statement (.beq rs1 rs2 off12) :=
  fun _ => row_funct3 (fieldOpcode_packB ..) (fieldFunct3_packB ..)

theorem EncodesItsRow.bne (rs1 rs2 : RegIdx) (off12 : BitVec 12) :
    EncodesItsRow.Statement (.bne rs1 rs2 off12) :=
  fun _ => row_funct3 (fieldOpcode_packB ..) (fieldFunct3_packB ..)

theorem EncodesItsRow.blt (rs1 rs2 : RegIdx) (off12 : BitVec 12) :
    EncodesItsRow.Statement (.blt rs1 rs2 off12) :=
  fun _ => row_funct3 (fieldOpcode_packB ..) (fieldFunct3_packB ..)

theorem EncodesItsRow.bge (rs1 rs2 : RegIdx) (off12 : BitVec 12) :
    EncodesItsRow.Statement (.bge rs1 rs2 off12) :=
  fun _ => row_funct3 (fieldOpcode_packB ..) (fieldFunct3_packB ..)

theorem EncodesItsRow.bltu (rs1 rs2 : RegIdx) (off12 : BitVec 12) :
    EncodesItsRow.Statement (.bltu rs1 rs2 off12) :=
  fun _ => row_funct3 (fieldOpcode_packB ..) (fieldFunct3_packB ..)

theorem EncodesItsRow.bgeu (rs1 rs2 : RegIdx) (off12 : BitVec 12) :
    EncodesItsRow.Statement (.bgeu rs1 rs2 off12) :=
  fun _ => row_funct3 (fieldOpcode_packB ..) (fieldFunct3_packB ..)

theorem EncodesItsRow.branchReserved (funct3 : BitVec 3) (rs1 rs2 : RegIdx) (off12 : BitVec 12) :
    EncodesItsRow.Statement (.branchReserved funct3 rs1 rs2 off12) := by
  intro h
  have hf : funct3 = 0b010#3 ∨ funct3 = 0b011#3 := by
    have h2 : (funct3 == 0b010#3 || funct3 == 0b011#3) = true := h
    clear h; revert funct3; decide
  obtain rfl | rfl := hf <;> exact row_branchReserved (fieldOpcode_packB ..) (fieldFunct3_packB ..)

theorem EncodesItsRow.lb (rd rs1 : RegIdx) (imm12 : BitVec 12) :
    EncodesItsRow.Statement (.lb rd rs1 imm12) :=
  fun _ => row_funct3 (fieldOpcode_packI ..) (fieldFunct3_packI ..)

theorem EncodesItsRow.lh (rd rs1 : RegIdx) (imm12 : BitVec 12) :
    EncodesItsRow.Statement (.lh rd rs1 imm12) :=
  fun _ => row_funct3 (fieldOpcode_packI ..) (fieldFunct3_packI ..)

theorem EncodesItsRow.lw (rd rs1 : RegIdx) (imm12 : BitVec 12) :
    EncodesItsRow.Statement (.lw rd rs1 imm12) :=
  fun _ => row_funct3 (fieldOpcode_packI ..) (fieldFunct3_packI ..)

theorem EncodesItsRow.lbu (rd rs1 : RegIdx) (imm12 : BitVec 12) :
    EncodesItsRow.Statement (.lbu rd rs1 imm12) :=
  fun _ => row_funct3 (fieldOpcode_packI ..) (fieldFunct3_packI ..)

theorem EncodesItsRow.lhu (rd rs1 : RegIdx) (imm12 : BitVec 12) :
    EncodesItsRow.Statement (.lhu rd rs1 imm12) :=
  fun _ => row_funct3 (fieldOpcode_packI ..) (fieldFunct3_packI ..)

theorem EncodesItsRow.loadReserved011 (rd rs1 : RegIdx) (imm12 : BitVec 12) :
    EncodesItsRow.Statement (.loadReserved011 rd rs1 imm12) :=
  fun _ => row_funct3 (fieldOpcode_packI ..) (fieldFunct3_packI ..)

theorem EncodesItsRow.loadReserved110 (rd rs1 : RegIdx) (imm12 : BitVec 12) :
    EncodesItsRow.Statement (.loadReserved110 rd rs1 imm12) :=
  fun _ => row_funct3 (fieldOpcode_packI ..) (fieldFunct3_packI ..)

theorem EncodesItsRow.loadReserved111 (rd rs1 : RegIdx) (imm12 : BitVec 12) :
    EncodesItsRow.Statement (.loadReserved111 rd rs1 imm12) :=
  fun _ => row_funct3 (fieldOpcode_packI ..) (fieldFunct3_packI ..)

theorem EncodesItsRow.sb (rs1 rs2 : RegIdx) (imm12 : BitVec 12) :
    EncodesItsRow.Statement (.sb rs1 rs2 imm12) :=
  fun _ => row_funct3 (fieldOpcode_packS ..) (fieldFunct3_packS ..)

theorem EncodesItsRow.sh (rs1 rs2 : RegIdx) (imm12 : BitVec 12) :
    EncodesItsRow.Statement (.sh rs1 rs2 imm12) :=
  fun _ => row_funct3 (fieldOpcode_packS ..) (fieldFunct3_packS ..)

theorem EncodesItsRow.sw (rs1 rs2 : RegIdx) (imm12 : BitVec 12) :
    EncodesItsRow.Statement (.sw rs1 rs2 imm12) :=
  fun _ => row_funct3 (fieldOpcode_packS ..) (fieldFunct3_packS ..)

theorem EncodesItsRow.storeReserved011 (rs1 rs2 : RegIdx) (imm12 : BitVec 12) :
    EncodesItsRow.Statement (.storeReserved011 rs1 rs2 imm12) :=
  fun _ => row_funct3 (fieldOpcode_packS ..) (fieldFunct3_packS ..)

theorem EncodesItsRow.storeReserved1xx (funct3 : BitVec 3) (rs1 rs2 : RegIdx) (imm12 : BitVec 12) :
    EncodesItsRow.Statement (.storeReserved1xx funct3 rs1 rs2 imm12) := by
  intro h
  have h4 : funct3 &&& 0b100#3 = 0b100#3 := by
    have h2 : funct3.getLsbD 2 = true := h
    clear h; revert funct3; decide
  exact (row_storeReserved (fieldOpcode_packS ..) (fieldFunct3_packS ..)).trans (by rw [h4]; rfl)

theorem EncodesItsRow.addi (rd rs1 : RegIdx) (imm12 : BitVec 12) :
    EncodesItsRow.Statement (.addi rd rs1 imm12) :=
  fun _ => row_funct3 (fieldOpcode_packI ..) (fieldFunct3_packI ..)

theorem EncodesItsRow.slti (rd rs1 : RegIdx) (imm12 : BitVec 12) :
    EncodesItsRow.Statement (.slti rd rs1 imm12) :=
  fun _ => row_funct3 (fieldOpcode_packI ..) (fieldFunct3_packI ..)

theorem EncodesItsRow.sltiu (rd rs1 : RegIdx) (imm12 : BitVec 12) :
    EncodesItsRow.Statement (.sltiu rd rs1 imm12) :=
  fun _ => row_funct3 (fieldOpcode_packI ..) (fieldFunct3_packI ..)

theorem EncodesItsRow.xori (rd rs1 : RegIdx) (imm12 : BitVec 12) :
    EncodesItsRow.Statement (.xori rd rs1 imm12) :=
  fun _ => row_funct3 (fieldOpcode_packI ..) (fieldFunct3_packI ..)

theorem EncodesItsRow.ori (rd rs1 : RegIdx) (imm12 : BitVec 12) :
    EncodesItsRow.Statement (.ori rd rs1 imm12) :=
  fun _ => row_funct3 (fieldOpcode_packI ..) (fieldFunct3_packI ..)

theorem EncodesItsRow.andi (rd rs1 : RegIdx) (imm12 : BitVec 12) :
    EncodesItsRow.Statement (.andi rd rs1 imm12) :=
  fun _ => row_funct3 (fieldOpcode_packI ..) (fieldFunct3_packI ..)

theorem EncodesItsRow.slli (rd rs1 : RegIdx) (funct7 : BitVec 7) (shamt : BitVec 5) :
    EncodesItsRow.Statement (.slli rd rs1 funct7 shamt) :=
  fun _ => row_funct3 (fieldOpcode_packI ..) (fieldFunct3_packI ..)

theorem EncodesItsRow.srli (rd rs1 : RegIdx) (funct7 : BitVec 7) (shamt : BitVec 5) :
    EncodesItsRow.Statement (.srli rd rs1 funct7 shamt) :=
  fun h => row_bit30 (b := false) (fieldOpcode_packI ..) (fieldFunct3_packI ..) (fieldFunct7_packI_shift ..)
    ((Bool.not_eq_true' _).mp h)

theorem EncodesItsRow.srai (rd rs1 : RegIdx) (funct7 : BitVec 7) (shamt : BitVec 5) :
    EncodesItsRow.Statement (.srai rd rs1 funct7 shamt) :=
  fun h => row_bit30 (b := true) (fieldOpcode_packI ..) (fieldFunct3_packI ..) (fieldFunct7_packI_shift ..) h

theorem EncodesItsRow.add (rd rs1 rs2 : RegIdx) (funct7 : BitVec 7) :
    EncodesItsRow.Statement (.add rd rs1 rs2 funct7) :=
  fun h => row_bit30 (b := false) (fieldOpcode_packR ..) (fieldFunct3_packR ..) (fieldFunct7_packR ..)
    ((Bool.not_eq_true' _).mp h)

theorem EncodesItsRow.sub (rd rs1 rs2 : RegIdx) (funct7 : BitVec 7) :
    EncodesItsRow.Statement (.sub rd rs1 rs2 funct7) :=
  fun h => row_bit30 (b := true) (fieldOpcode_packR ..) (fieldFunct3_packR ..) (fieldFunct7_packR ..) h

theorem EncodesItsRow.sll (rd rs1 rs2 : RegIdx) (funct7 : BitVec 7) :
    EncodesItsRow.Statement (.sll rd rs1 rs2 funct7) :=
  fun _ => row_funct3 (fieldOpcode_packR ..) (fieldFunct3_packR ..)

theorem EncodesItsRow.slt (rd rs1 rs2 : RegIdx) (funct7 : BitVec 7) :
    EncodesItsRow.Statement (.slt rd rs1 rs2 funct7) :=
  fun _ => row_funct3 (fieldOpcode_packR ..) (fieldFunct3_packR ..)

theorem EncodesItsRow.sltu (rd rs1 rs2 : RegIdx) (funct7 : BitVec 7) :
    EncodesItsRow.Statement (.sltu rd rs1 rs2 funct7) :=
  fun _ => row_funct3 (fieldOpcode_packR ..) (fieldFunct3_packR ..)

theorem EncodesItsRow.xor (rd rs1 rs2 : RegIdx) (funct7 : BitVec 7) :
    EncodesItsRow.Statement (.xor rd rs1 rs2 funct7) :=
  fun _ => row_funct3 (fieldOpcode_packR ..) (fieldFunct3_packR ..)

theorem EncodesItsRow.srl (rd rs1 rs2 : RegIdx) (funct7 : BitVec 7) :
    EncodesItsRow.Statement (.srl rd rs1 rs2 funct7) :=
  fun h => row_bit30 (b := false) (fieldOpcode_packR ..) (fieldFunct3_packR ..) (fieldFunct7_packR ..)
    ((Bool.not_eq_true' _).mp h)

theorem EncodesItsRow.sra (rd rs1 rs2 : RegIdx) (funct7 : BitVec 7) :
    EncodesItsRow.Statement (.sra rd rs1 rs2 funct7) :=
  fun h => row_bit30 (b := true) (fieldOpcode_packR ..) (fieldFunct3_packR ..) (fieldFunct7_packR ..) h

theorem EncodesItsRow.or (rd rs1 rs2 : RegIdx) (funct7 : BitVec 7) :
    EncodesItsRow.Statement (.or rd rs1 rs2 funct7) :=
  fun _ => row_funct3 (fieldOpcode_packR ..) (fieldFunct3_packR ..)

theorem EncodesItsRow.and (rd rs1 rs2 : RegIdx) (funct7 : BitVec 7) :
    EncodesItsRow.Statement (.and rd rs1 rs2 funct7) :=
  fun _ => row_funct3 (fieldOpcode_packR ..) (fieldFunct3_packR ..)

theorem EncodesItsRow.ecall : EncodesItsRow.Statement .ecall :=
  fun _ => rfl

theorem EncodesItsRow.ebreak : EncodesItsRow.Statement .ebreak :=
  fun _ => rfl

theorem EncodesItsRow.system (rd rs1 : RegIdx) (funct3 : BitVec 3) (imm12 : BitVec 12) :
    EncodesItsRow.Statement (.system rd rs1 funct3 imm12) :=
  fun _ => row_opcode (fieldOpcode_packI ..)

theorem EncodesItsRow.miscMem (rd rs1 : RegIdx) (funct3 : BitVec 3) (imm12 : BitVec 12) :
    EncodesItsRow.Statement (.miscMem rd rs1 funct3 imm12) :=
  fun _ => row_opcode (fieldOpcode_packI ..)

theorem EncodesItsRow.unrecognized (word : Word) :
    EncodesItsRow.Statement (.unrecognized word) :=
  fun _ => BitVec.and_zero

end Sys2Proof.Laws
end

