-- ==== Sys2Proof/Laws/Step.lean ====
section
/-! SUPPORT. Laws/Step.lean: for each shared shape of a cycle, what it leaves in each field, once; the loads' value;
and the shapes an instruction can have. -/

namespace Sys2Proof.Machine

/-! ### aluToReg -/
@[simp] theorem aluToReg_pc (s : State) (op : AluOp) (rd : RegIdx) (a b : Word) :
    (s.aluToReg op rd a b).pc = s.pc + 4#32 := by simp [State.aluToReg]
@[simp] theorem aluToReg_mem (s : State) (op : AluOp) (rd : RegIdx) (a b : Word) :
    (s.aluToReg op rd a b).mem = s.mem := by simp [State.aluToReg]
@[simp] theorem aluToReg_flags (s : State) (op : AluOp) (rd : RegIdx) (a b : Word) :
    (s.aluToReg op rd a b).flags = aluFlags op a b := by simp [State.aluToReg]
@[simp] theorem aluToReg_cycleCount (s : State) (op : AluOp) (rd : RegIdx) (a b : Word) :
    (s.aluToReg op rd a b).cycleCount = s.cycleCount + 1#64 := by simp [State.aluToReg]
@[simp] theorem aluToReg_memSize (s : State) (op : AluOp) (rd : RegIdx) (a b : Word) :
    (s.aluToReg op rd a b).memSize = s.memSize := by simp [State.aluToReg]
@[simp] theorem aluToReg_draws (s : State) (op : AluOp) (rd : RegIdx) (a b : Word) :
    (s.aluToReg op rd a b).draws = s.draws := by simp [State.aluToReg]
@[simp] theorem aluToReg_byteAt (s : State) (op : AluOp) (rd : RegIdx) (a b c : Word) :
    (s.aluToReg op rd a b).byteAt c = s.byteAt c := by simp [State.aluToReg]
theorem aluToReg_readReg (s : State) (op : AluOp) (rd r : RegIdx) (a b : Word) :
    (s.aluToReg op rd a b).readReg r = if r = rd ∧ rd ≠ 0#5 then aluResult op a b else s.readReg r := by
  simp [State.aluToReg, readReg_writeReg]

/-! ### linkAndJump -/
@[simp] theorem linkAndJump_pc (s : State) (rd : RegIdx) (a b t : Word) :
    (s.linkAndJump rd a b t).pc = alignPc t := by simp [State.linkAndJump]
@[simp] theorem linkAndJump_mem (s : State) (rd : RegIdx) (a b t : Word) :
    (s.linkAndJump rd a b t).mem = s.mem := by simp [State.linkAndJump]
@[simp] theorem linkAndJump_flags (s : State) (rd : RegIdx) (a b t : Word) :
    (s.linkAndJump rd a b t).flags = aluFlags .add a b := by simp [State.linkAndJump]
@[simp] theorem linkAndJump_cycleCount (s : State) (rd : RegIdx) (a b t : Word) :
    (s.linkAndJump rd a b t).cycleCount = s.cycleCount + 1#64 := by simp [State.linkAndJump]
@[simp] theorem linkAndJump_memSize (s : State) (rd : RegIdx) (a b t : Word) :
    (s.linkAndJump rd a b t).memSize = s.memSize := by simp [State.linkAndJump]
@[simp] theorem linkAndJump_draws (s : State) (rd : RegIdx) (a b t : Word) :
    (s.linkAndJump rd a b t).draws = s.draws := by simp [State.linkAndJump]
@[simp] theorem linkAndJump_byteAt (s : State) (rd : RegIdx) (a b t c : Word) :
    (s.linkAndJump rd a b t).byteAt c = s.byteAt c := by simp [State.linkAndJump]
theorem linkAndJump_readReg (s : State) (rd r : RegIdx) (a b t : Word) :
    (s.linkAndJump rd a b t).readReg r = if r = rd ∧ rd ≠ 0#5 then s.pc + 4#32 else s.readReg r := by
  simp [State.linkAndJump, readReg_writeReg]

/-! ### branch -/
theorem branch_pc (s : State) (f3 : BitVec 3) (rs1 rs2 : RegIdx) (off : BitVec 12) :
    (s.branch f3 rs1 rs2 off).pc =
      if branchCond f3 (s.readReg rs1) (s.readReg rs2) then alignPc (s.pc + immB off) else s.pc + 4#32 := rfl
@[simp] theorem branch_mem (s : State) (f3 : BitVec 3) (rs1 rs2 : RegIdx) (off : BitVec 12) :
    (s.branch f3 rs1 rs2 off).mem = s.mem := rfl
@[simp] theorem branch_flags (s : State) (f3 : BitVec 3) (rs1 rs2 : RegIdx) (off : BitVec 12) :
    (s.branch f3 rs1 rs2 off).flags = aluFlags .sub (s.readReg rs1) (s.readReg rs2) := rfl
@[simp] theorem branch_cycleCount (s : State) (f3 : BitVec 3) (rs1 rs2 : RegIdx) (off : BitVec 12) :
    (s.branch f3 rs1 rs2 off).cycleCount = s.cycleCount + 1#64 := rfl
@[simp] theorem branch_memSize (s : State) (f3 : BitVec 3) (rs1 rs2 : RegIdx) (off : BitVec 12) :
    (s.branch f3 rs1 rs2 off).memSize = s.memSize := rfl
@[simp] theorem branch_draws (s : State) (f3 : BitVec 3) (rs1 rs2 : RegIdx) (off : BitVec 12) :
    (s.branch f3 rs1 rs2 off).draws = s.draws := rfl
@[simp] theorem branch_readReg (s : State) (f3 : BitVec 3) (rs1 rs2 : RegIdx) (off : BitVec 12) (r : RegIdx) :
    (s.branch f3 rs1 rs2 off).readReg r = s.readReg r := rfl
@[simp] theorem branch_byteAt (s : State) (f3 : BitVec 3) (rs1 rs2 : RegIdx) (off : BitVec 12) (a : Word) :
    (s.branch f3 rs1 rs2 off).byteAt a = s.byteAt a := rfl

/-! ### load -/

/-- A load at an aligned address is an instruction that writes the extended raw value, with the flags of the address
Add. -/
theorem load_of_memRead (s : State) (w : Width) (sg : Bool) (rd rs1 : RegIdx) (imm : BitVec 12) (raw : Word)
    (h : s.memRead w (s.baseOffset rs1 imm) = some raw) :
    s.load w sg rd rs1 imm =
      ((s.setFlags (aluFlags .add (s.readReg rs1) (immI imm))).writeReg rd (extendLoad w sg raw)).advance := by
  simp [State.load, State.loadValue, h]

/-- A load at a misaligned address writes the free value at the next index, and uses that index (R118, D4). -/
theorem load_of_misaligned (s : State) (w : Width) (sg : Bool) (rd rs1 : RegIdx) (imm : BitVec 12)
    (h : s.memRead w (s.baseOffset rs1 imm) = none) :
    s.load w sg rd rs1 imm =
      (({ s.setFlags (aluFlags .add (s.readReg rs1) (immI imm)) with draws := s.draws + 1 }).writeReg rd
        (Config.misalignedLoadValue s.draws)).advance := by
  simp [State.load, State.loadValue, h]

@[simp] theorem load_pc (s : State) (w : Width) (sg : Bool) (rd rs1 : RegIdx) (imm : BitVec 12) :
    (s.load w sg rd rs1 imm).pc = s.pc + 4#32 := by
  rcases h : s.memRead w (s.baseOffset rs1 imm) with _ | raw
  · simp [load_of_misaligned _ _ _ _ _ _ h]
  · simp [load_of_memRead _ _ _ _ _ _ _ h]
@[simp] theorem load_mem (s : State) (w : Width) (sg : Bool) (rd rs1 : RegIdx) (imm : BitVec 12) :
    (s.load w sg rd rs1 imm).mem = s.mem := by
  rcases h : s.memRead w (s.baseOffset rs1 imm) with _ | raw
  · simp [load_of_misaligned _ _ _ _ _ _ h]
  · simp [load_of_memRead _ _ _ _ _ _ _ h]
@[simp] theorem load_flags (s : State) (w : Width) (sg : Bool) (rd rs1 : RegIdx) (imm : BitVec 12) :
    (s.load w sg rd rs1 imm).flags = aluFlags .add (s.readReg rs1) (immI imm) := by
  rcases h : s.memRead w (s.baseOffset rs1 imm) with _ | raw
  · simp [load_of_misaligned _ _ _ _ _ _ h]
  · simp [load_of_memRead _ _ _ _ _ _ _ h]
@[simp] theorem load_cycleCount (s : State) (w : Width) (sg : Bool) (rd rs1 : RegIdx) (imm : BitVec 12) :
    (s.load w sg rd rs1 imm).cycleCount = s.cycleCount + 1#64 := by
  rcases h : s.memRead w (s.baseOffset rs1 imm) with _ | raw
  · simp [load_of_misaligned _ _ _ _ _ _ h]
  · simp [load_of_memRead _ _ _ _ _ _ _ h]
@[simp] theorem load_memSize (s : State) (w : Width) (sg : Bool) (rd rs1 : RegIdx) (imm : BitVec 12) :
    (s.load w sg rd rs1 imm).memSize = s.memSize := by
  rcases h : s.memRead w (s.baseOffset rs1 imm) with _ | raw
  · simp [load_of_misaligned _ _ _ _ _ _ h]
  · simp [load_of_memRead _ _ _ _ _ _ _ h]
theorem load_readReg_ne (s : State) (w : Width) (sg : Bool) (rd rs1 r : RegIdx) (imm : BitVec 12) (hr : r ≠ rd) :
    (s.load w sg rd rs1 imm).readReg r = s.readReg r := by
  rcases h : s.memRead w (s.baseOffset rs1 imm) with _ | raw
  · rw [load_of_misaligned _ _ _ _ _ _ h, advance_readReg, readReg_writeReg_ne _ _ _ _ hr]; rfl
  · rw [load_of_memRead _ _ _ _ _ _ _ h, advance_readReg, readReg_writeReg_ne _ _ _ _ hr, setFlags_readReg]

/-! ### loadReserved -/

/-- A load with a reserved funct3 writes the free value at the next index, and uses that index (R124, D5). -/
theorem loadReserved_eq (s : State) (rd rs1 : RegIdx) (imm : BitVec 12) :
    s.loadReserved rd rs1 imm =
      (({ s.setFlags (aluFlags .add (s.readReg rs1) (immI imm)) with draws := s.draws + 1 }).writeReg rd
        (Config.reservedLoadValue s.draws)).advance := rfl

/-! ### store and storeNothing -/
@[simp] theorem store_pc (s : State) (w : Width) (rs1 rs2 : RegIdx) (imm : BitVec 12) :
    (s.store w rs1 rs2 imm).pc = s.pc + 4#32 := by simp [State.store]
@[simp] theorem store_flags (s : State) (w : Width) (rs1 rs2 : RegIdx) (imm : BitVec 12) :
    (s.store w rs1 rs2 imm).flags = aluFlags .add (s.readReg rs1) (immI imm) := by simp [State.store]
@[simp] theorem store_cycleCount (s : State) (w : Width) (rs1 rs2 : RegIdx) (imm : BitVec 12) :
    (s.store w rs1 rs2 imm).cycleCount = s.cycleCount + 1#64 := by simp [State.store]
@[simp] theorem store_memSize (s : State) (w : Width) (rs1 rs2 : RegIdx) (imm : BitVec 12) :
    (s.store w rs1 rs2 imm).memSize = s.memSize := by simp [State.store]
@[simp] theorem store_draws (s : State) (w : Width) (rs1 rs2 : RegIdx) (imm : BitVec 12) :
    (s.store w rs1 rs2 imm).draws = s.draws := by simp [State.store]
@[simp] theorem store_readReg (s : State) (w : Width) (rs1 rs2 r : RegIdx) (imm : BitVec 12) :
    (s.store w rs1 rs2 imm).readReg r = s.readReg r := by simp [State.store]
theorem store_mem (s : State) (w : Width) (rs1 rs2 : RegIdx) (imm : BitVec 12) :
    (s.store w rs1 rs2 imm).mem = (s.memWrite w (s.baseOffset rs1 imm) (s.readReg rs2)).mem := by
  simp only [State.store, advance_mem, State.memWrite, setFlags_mem, setFlags_memSize]
  split <;> cases w <;> rfl

/-! ### shapes -/

/-- Every instruction is one of the eight shared shapes of a cycle, with the register it writes, whether it can write
memory and whether it can transfer control. -/
theorem exec_shape (i : Instr) (s : State) :
    (∃ op rd a b, exec i s = .next (s.aluToReg op rd a b) ∧
      destination i = some rd ∧ writesMemory i = false ∧ transfersControl i = false) ∨
    (∃ rd a b t, exec i s = .next (s.linkAndJump rd a b t) ∧
      destination i = some rd ∧ writesMemory i = false ∧ transfersControl i = true) ∨
    (∃ f3 rs1 rs2 off, exec i s = .next (s.branch f3 rs1 rs2 off) ∧
      destination i = none ∧ writesMemory i = false ∧ transfersControl i = true) ∨
    (∃ w sg rd rs1 imm, exec i s = .next (s.load w sg rd rs1 imm) ∧
      destination i = some rd ∧ writesMemory i = false ∧ transfersControl i = false) ∨
    (∃ rd rs1 imm, exec i s = .next (s.loadReserved rd rs1 imm) ∧
      destination i = some rd ∧ writesMemory i = false ∧ transfersControl i = false) ∨
    (∃ w rs1 rs2 imm, exec i s = .next (s.store w rs1 rs2 imm) ∧
      destination i = none ∧ writesMemory i = true ∧ transfersControl i = false) ∨
    (∃ rs1 imm, exec i s = .next (s.storeNothing rs1 imm) ∧
      destination i = none ∧ writesMemory i = false ∧ transfersControl i = false) ∨
    (∃ rs1 rs2, exec i s = .next (s.inert rs1 rs2) ∧
      destination i = none ∧ writesMemory i = false ∧ transfersControl i = false) := by
  cases i with
  | lui => exact .inl ⟨_, _, _, _, rfl, rfl, rfl, rfl⟩
  | auipc => exact .inl ⟨_, _, _, _, rfl, rfl, rfl, rfl⟩
  | jal => exact .inr (.inl ⟨_, _, _, _, rfl, rfl, rfl, rfl⟩)
  | jalr => exact .inr (.inl ⟨_, _, _, _, rfl, rfl, rfl, rfl⟩)
  | beq => exact .inr (.inr (.inl ⟨_, _, _, _, rfl, rfl, rfl, rfl⟩))
  | bne => exact .inr (.inr (.inl ⟨_, _, _, _, rfl, rfl, rfl, rfl⟩))
  | blt => exact .inr (.inr (.inl ⟨_, _, _, _, rfl, rfl, rfl, rfl⟩))
  | bge => exact .inr (.inr (.inl ⟨_, _, _, _, rfl, rfl, rfl, rfl⟩))
  | bltu => exact .inr (.inr (.inl ⟨_, _, _, _, rfl, rfl, rfl, rfl⟩))
  | bgeu => exact .inr (.inr (.inl ⟨_, _, _, _, rfl, rfl, rfl, rfl⟩))
  | branchReserved => exact .inr (.inr (.inl ⟨_, _, _, _, rfl, rfl, rfl, rfl⟩))
  | lb => exact .inr (.inr (.inr (.inl ⟨_, _, _, _, _, rfl, rfl, rfl, rfl⟩)))
  | lh => exact .inr (.inr (.inr (.inl ⟨_, _, _, _, _, rfl, rfl, rfl, rfl⟩)))
  | lw => exact .inr (.inr (.inr (.inl ⟨_, _, _, _, _, rfl, rfl, rfl, rfl⟩)))
  | lbu => exact .inr (.inr (.inr (.inl ⟨_, _, _, _, _, rfl, rfl, rfl, rfl⟩)))
  | lhu => exact .inr (.inr (.inr (.inl ⟨_, _, _, _, _, rfl, rfl, rfl, rfl⟩)))
  | loadReserved011 => exact .inr (.inr (.inr (.inr (.inl ⟨_, _, _, rfl, rfl, rfl, rfl⟩))))
  | loadReserved110 => exact .inr (.inr (.inr (.inr (.inl ⟨_, _, _, rfl, rfl, rfl, rfl⟩))))
  | loadReserved111 => exact .inr (.inr (.inr (.inr (.inl ⟨_, _, _, rfl, rfl, rfl, rfl⟩))))
  | sb => exact .inr (.inr (.inr (.inr (.inr (.inl ⟨_, _, _, _, rfl, rfl, rfl, rfl⟩)))))
  | sh => exact .inr (.inr (.inr (.inr (.inr (.inl ⟨_, _, _, _, rfl, rfl, rfl, rfl⟩)))))
  | sw => exact .inr (.inr (.inr (.inr (.inr (.inl ⟨_, _, _, _, rfl, rfl, rfl, rfl⟩)))))
  | storeReserved011 => exact .inr (.inr (.inr (.inr (.inr (.inr (.inl ⟨_, _, rfl, rfl, rfl, rfl⟩))))))
  | storeReserved1xx => exact .inr (.inr (.inr (.inr (.inr (.inr (.inl ⟨_, _, rfl, rfl, rfl, rfl⟩))))))
  | addi => exact .inl ⟨_, _, _, _, rfl, rfl, rfl, rfl⟩
  | slti => exact .inl ⟨_, _, _, _, rfl, rfl, rfl, rfl⟩
  | sltiu => exact .inl ⟨_, _, _, _, rfl, rfl, rfl, rfl⟩
  | xori => exact .inl ⟨_, _, _, _, rfl, rfl, rfl, rfl⟩
  | ori => exact .inl ⟨_, _, _, _, rfl, rfl, rfl, rfl⟩
  | andi => exact .inl ⟨_, _, _, _, rfl, rfl, rfl, rfl⟩
  | slli => exact .inl ⟨_, _, _, _, rfl, rfl, rfl, rfl⟩
  | srli => exact .inl ⟨_, _, _, _, rfl, rfl, rfl, rfl⟩
  | srai => exact .inl ⟨_, _, _, _, rfl, rfl, rfl, rfl⟩
  | add => exact .inl ⟨_, _, _, _, rfl, rfl, rfl, rfl⟩
  | sub => exact .inl ⟨_, _, _, _, rfl, rfl, rfl, rfl⟩
  | sll => exact .inl ⟨_, _, _, _, rfl, rfl, rfl, rfl⟩
  | slt => exact .inl ⟨_, _, _, _, rfl, rfl, rfl, rfl⟩
  | sltu => exact .inl ⟨_, _, _, _, rfl, rfl, rfl, rfl⟩
  | xor => exact .inl ⟨_, _, _, _, rfl, rfl, rfl, rfl⟩
  | srl => exact .inl ⟨_, _, _, _, rfl, rfl, rfl, rfl⟩
  | sra => exact .inl ⟨_, _, _, _, rfl, rfl, rfl, rfl⟩
  | or => exact .inl ⟨_, _, _, _, rfl, rfl, rfl, rfl⟩
  | and => exact .inl ⟨_, _, _, _, rfl, rfl, rfl, rfl⟩
  | ecall => exact .inr (.inr (.inr (.inr (.inr (.inr (.inr ⟨_, _, rfl, rfl, rfl, rfl⟩))))))
  | ebreak => exact .inr (.inr (.inr (.inr (.inr (.inr (.inr ⟨_, _, rfl, rfl, rfl, rfl⟩))))))
  | system => exact .inr (.inr (.inr (.inr (.inr (.inr (.inr ⟨_, _, rfl, rfl, rfl, rfl⟩))))))
  | miscMem => exact .inr (.inr (.inr (.inr (.inr (.inr (.inr ⟨_, _, rfl, rfl, rfl, rfl⟩))))))
  | unrecognized => exact .inr (.inr (.inr (.inr (.inr (.inr (.inr ⟨_, _, rfl, rfl, rfl, rfl⟩))))))

end Sys2Proof.Machine
end

