-- ==== Sys2Proof/Tests/Slice0.lean ====
section
/-! SUPPORT. Tests/Slice0.lean: tests. Expected values are the spec's own (spec/95_test_vectors.md and the examples of
the rules named), or hand-packed from spec/30_encoding.md R58 to R66; no value comes from the model. The last part
gives, for each statement with hypotheses, states and operands that meet them, clause by clause. -/

namespace Sys2Proof.Machine

/-! ### Helpers -/

/-- The state after construction with `pc`, some registers, some memory words, and the instruction word at `pc`. -/
def start (pc : Word) (regs : List (RegIdx × Word)) (words : List (Word × Word)) (w : Word) : State :=
  loadProgram (regs.foldl (fun s r => s.writeReg r.1 r.2) { State.reset with pc := pc }) (words ++ [(pc, w)])

def afterStep (s : State) (see : State → Word) : Option (Word × Flags) :=
  match step s with
  | .next t => some (see t, t.flags)
  | _ => none

/-- A register and the flags after one step. -/
def regAfter (r : RegIdx) (s : State) : Option (Word × Flags) := afterStep s fun t => t.readReg r
/-- `pc` and the flags after one step. -/
def pcAfter (s : State) : Option (Word × Flags) := afterStep s State.pc
/-- A memory word and the flags after one step. -/
def wordAfter (a : Word) (s : State) : Option (Word × Flags) := afterStep s fun t => t.wordAt a

/-! ### WellFormed refuses an ill-formed term of each check, and takes a well-formed one -/

theorem test_wf_branchReserved_refuses : (Instr.branchReserved 0b000 1 2 4).wellFormed = false := by decide
theorem test_wf_branchReserved_takes : (Instr.branchReserved 0b011 1 2 4).wellFormed = true := by decide
theorem test_wf_storeReserved1xx_refuses : (Instr.storeReserved1xx 0b011 1 2 4).wellFormed = false := by decide
theorem test_wf_storeReserved1xx_takes : (Instr.storeReserved1xx 0b100 1 2 4).wellFormed = true := by decide
theorem test_wf_srli_refuses : (Instr.srli 2 1 0b0100000 4).wellFormed = false := by decide
theorem test_wf_srai_refuses : (Instr.srai 2 1 0b0000000 4).wellFormed = false := by decide
theorem test_wf_add_refuses : (Instr.add 3 1 2 0b0100000).wellFormed = false := by decide
theorem test_wf_sub_refuses : (Instr.sub 3 1 2 0b0000001).wellFormed = false := by decide
theorem test_wf_srl_refuses : (Instr.srl 3 1 2 0b0100000).wellFormed = false := by decide
theorem test_wf_sra_refuses : (Instr.sra 3 1 2 0b0000000).wellFormed = false := by decide
theorem test_wf_funct7_takes :
    (Instr.add 3 1 2 0b0000001).wellFormed = true ∧ (Instr.sub 3 1 2 0b0100000).wellFormed = true ∧
    (Instr.srai 2 1 0b1111111 4).wellFormed = true := by decide
theorem test_wf_system_refuses_ecall_and_ebreak :
    (Instr.system 0 0 0 0).wellFormed = false ∧ (Instr.system 0 0 0 1).wellFormed = false ∧
    (Instr.system 0 0 0 0x302).wellFormed = true := by decide
theorem test_wf_unrecognized_refuses :
    (Instr.unrecognized 0x002081B3).wellFormed = false ∧ (Instr.unrecognized 0x0FF0000F).wellFormed = false ∧
    (Instr.unrecognized 0).wellFormed = true := by decide

/-! ### Decoding: for every constructor a word written out field by field (R58 to R64 and the row of the table) -/

theorem test_decode_upper_immediate :
    decode 0b00010010001101000101_00101_0110111 = .lui 5 0x12345 ∧              -- lui x5, 0x12345
    decode 0b11111111111111111111_00010_0010111 = .auipc 2 0xFFFFF := by decide  -- auipc x2, 0xFFFFF
theorem test_decode_jumps :
    decode 0b0_0000000100_0_00000000_00001_1101111 = .jal 1 4 ∧                 -- jal x1, 8
    decode 0b1_1111111110_1_11111111_00000_1101111 = .jal 0 0xFFFFE ∧           -- jal x0, -4
    decode 0b0_0000000000_1_00000000_00000_1101111 = .jal 0 0x00400 ∧           -- jal x0, 2048
    decode 0b000000000100_00101_000_00101_1100111 = .jalr 5 5 0 4 ∧             -- jalr x5, 4(x5)
    decode 0b000000000000_00101_001_00001_1100111 = .jalr 1 5 1 0 := by decide   -- the same with funct3 001
theorem test_decode_branches :
    decode 0b0_000000_00010_00001_000_0100_0_1100011 = .beq 1 2 4 ∧             -- beq x1, x2, 8
    decode 0b1_111111_00000_00000_000_1100_1_1100011 = .beq 0 0 0xFFC ∧         -- beq x0, x0, -8
    decode 0b0_000000_00000_00000_000_0000_1_1100011 = .beq 0 0 0x400 ∧         -- beq x0, x0, 2048
    decode 0b0_000000_00010_00001_001_0100_0_1100011 = .bne 1 2 4 ∧
    decode 0b0_000000_00010_00001_100_0100_0_1100011 = .blt 1 2 4 ∧
    decode 0b0_000000_00010_00001_101_0100_0_1100011 = .bge 1 2 4 ∧
    decode 0b0_000000_00010_00001_110_0100_0_1100011 = .bltu 1 2 4 ∧
    decode 0b0_000000_00010_00001_111_0100_0_1100011 = .bgeu 1 2 4 ∧
    decode 0b0_000000_00010_00001_010_0100_0_1100011 = .branchReserved 0b010 1 2 4 ∧
    decode 0b0_000000_00010_00001_011_0100_0_1100011 = .branchReserved 0b011 1 2 4 := by decide
theorem test_decode_loads :
    decode 0b000000000011_00001_000_00101_0000011 = .lb 5 1 3 ∧
    decode 0b000000000010_00001_001_00101_0000011 = .lh 5 1 2 ∧
    decode 0b111111111100_00001_010_00101_0000011 = .lw 5 1 0xFFC ∧             -- lw x5, -4(x1)
    decode 0b000000000011_00001_100_00101_0000011 = .lbu 5 1 3 ∧
    decode 0b000000000010_00001_101_00101_0000011 = .lhu 5 1 2 ∧
    decode 0b000000000000_00001_011_00101_0000011 = .loadReserved011 5 1 0 ∧
    decode 0b000000000000_00001_110_00101_0000011 = .loadReserved110 5 1 0 ∧
    decode 0b000000000000_00001_111_00101_0000011 = .loadReserved111 5 1 0 := by decide
theorem test_decode_stores :
    decode 0b0000000_00010_00001_000_00001_0100011 = .sb 1 2 1 ∧
    decode 0b0000000_00010_00001_001_00010_0100011 = .sh 1 2 2 ∧
    decode 0b1111111_00010_00001_010_11100_0100011 = .sw 1 2 0xFFC ∧            -- sw x2, -4(x1)
    decode 0b0000000_00010_00001_011_00000_0100011 = .storeReserved011 1 2 0 ∧
    decode 0b0000000_00010_00001_100_00000_0100011 = .storeReserved1xx 0b100 1 2 0 ∧
    decode 0b0000000_00010_00001_111_00000_0100011 = .storeReserved1xx 0b111 1 2 0 := by decide
theorem test_decode_register_immediate :
    decode 0b000000101010_00000_000_00001_0010011 = .addi 1 0 42 ∧
    decode 0b000000000001_00001_010_00010_0010011 = .slti 2 1 1 ∧
    decode 0b111111111111_00001_011_00010_0010011 = .sltiu 2 1 0xFFF ∧
    decode 0b111111111111_00001_100_00010_0010011 = .xori 2 1 0xFFF ∧
    decode 0b000011110000_00001_110_00010_0010011 = .ori 2 1 0x0F0 ∧
    decode 0b000011111111_00001_111_00010_0010011 = .andi 2 1 0x0FF := by decide
theorem test_decode_immediate_shifts :
    decode 0b0000000_00100_00001_001_00010_0010011 = .slli 2 1 0 4 ∧
    decode 0b0100000_00100_00001_001_00010_0010011 = .slli 2 1 0b0100000 4 ∧
    decode 0b0000000_00100_00001_101_00010_0010011 = .srli 2 1 0 4 ∧
    decode 0b0100000_00100_00001_101_00010_0010011 = .srai 2 1 0b0100000 4 := by decide
theorem test_decode_register_register :
    decode 0b0000000_00010_00001_000_00011_0110011 = .add 3 1 2 0 ∧
    decode 0b0100000_00010_00001_000_00100_0110011 = .sub 4 1 2 0b0100000 ∧
    decode 0b0000000_00010_00001_001_00011_0110011 = .sll 3 1 2 0 ∧
    decode 0b0000000_00010_00001_010_00011_0110011 = .slt 3 1 2 0 ∧
    decode 0b0000000_00010_00001_011_00011_0110011 = .sltu 3 1 2 0 ∧
    decode 0b0000000_00010_00001_100_00011_0110011 = .xor 3 1 2 0 ∧
    decode 0b0000000_00010_00001_101_00011_0110011 = .srl 3 1 2 0 ∧
    decode 0b0100000_00010_00001_101_00011_0110011 = .sra 3 1 2 0b0100000 ∧
    decode 0b0000000_00010_00001_110_00011_0110011 = .or 3 1 2 0 ∧
    decode 0b0000000_00010_00001_111_00101_0110011 = .and 5 1 2 0 := by decide
/-- M-extension words decode as their base operation, keeping their funct7 (R140). -/
theorem test_decode_m_extension :
    decode 0b0000001_00010_00001_000_00011_0110011 = .add 3 1 2 1 ∧             -- mul x3, x1, x2
    decode 0b0000001_00010_00001_100_00011_0110011 = .xor 3 1 2 1 := by decide   -- div x3, x1, x2
theorem test_decode_system_and_unrecognized :
    decode 0b000000000000_00000_000_00000_1110011 = .ecall ∧
    decode 0b000000000001_00000_000_00000_1110011 = .ebreak ∧
    decode 0b001100000000_00001_001_00101_1110011 = .system 5 1 1 0x300 ∧       -- csrrw x5, 0x300, x1
    decode 0b001100000010_00000_000_00000_1110011 = .system 0 0 0 0x302 ∧       -- mret
    decode 0b000011111111_00000_000_00000_0001111 = .miscMem 0 0 0 0x0FF ∧      -- fence
    decode 0b0000000_00010_00001_010_00101_0101111 = .unrecognized 0x0020A2AF ∧ -- amoadd.w x5, x2, (x1)
    decode 0xFFFFFFFF = .unrecognized 0xFFFFFFFF := by decide

theorem test_decodeBytes_little_endian :
    decodeBytes [0xB3, 0x81, 0x20, 0x00, 0x13] = .ok (.add 3 1 2 0, [0x13]) ∧
    decodeBytes [0xB3, 0x81, 0x20] = .error .tooFewBytes := ⟨rfl, rfl⟩
theorem test_decodeTableWord :
    decodeTableWord 32 0x002081B3 = some (.add 3 1 2 0) ∧ decodeTableWord 32 0x00100073 = some .ebreak ∧
    decodeTableWord 48 0x002081B3 = none := by decide

/-! ### Fields and immediates of a word (95_test_vectors.md 2.1), encodings at the range limits (2.2) -/

theorem test_fields_of_a_branch_word :
    decoderOut 0xFE000CE3 = ⟨0b1100011, 25, 0, 0, 0, 0b1111111, 0xFFFFFFE0, 0xFFFFFFF9, 0xFFFFFFF8, 0xFE000000, 0xFFF007E0⟩ := by
  decide
theorem test_fields_of_a_jump_word :
    decoderOut 0xFFDFF06F = ⟨0b1101111, 0, 7, 31, 29, 0b1111111, 0xFFFFFFFD, 0xFFFFFFE0, 0xFFFFF7E0, 0xFFDFF000, 0xFFFFFFFC⟩ := by
  decide
theorem test_fields_of_a_lui_word :
    decoderOut 0x123452B7 = ⟨0b0110111, 5, 0b101, 8, 3, 0b0001001, 0x123, 0x125, 0x924, 0x12345000, 0x45922⟩ := by decide
theorem test_pack_I_and_S_limits :
    packI 0b0010011 0 0 0 (-2048) = 0x80000013 ∧ packI 0b0010011 0 0 0 2047 = 0x7FF00013 ∧
    packS 0b0100011 0 0 0 (-2048) = 0x80000023 ∧ packS 0b0100011 0 0 0 2047 = 0x7E000FA3 ∧
    packS 0b0100011 0 0 0 (-1) = 0xFE000FA3 := by decide
theorem test_pack_B_limits :
    packB 0b1100011 0 0 0 (-4096) = 0x80000063 ∧ packB 0b1100011 0 0 0 4094 = 0x7E000FE3 ∧
    packB 0b1100011 0 0 0 (-2) = 0xFE000FE3 ∧ packB 0b1100011 0 0 0 2048 = 0x000000E3 := by decide
theorem test_pack_U_and_J_limits :
    packU 0b0110111 0 0xFFFFF000 = 0xFFFFF037 ∧ packU 0b0110111 0 0x00001000 = 0x00001037 ∧
    packJ 0b1101111 0 (-1048576) = 0x8000006F ∧ packJ 0b1101111 0 1048574 = 0x7FFFF06F ∧
    packJ 0b1101111 0 (-2) = 0xFFFFF06F ∧ packJ 0b1101111 0 2048 = 0x0010006F := by decide
theorem test_encode_words :
    encode (.jal 0 0xFFFFE) = 0xFFDFF06F ∧ encode (.beq 0 0 0xFFC) = 0xFE000CE3 ∧ encode (.sw 1 2 0xFFC) = 0xFE20AE23 ∧
    encode (.srai 2 1 0b0100000 4) = 0x4040D113 ∧ encode .ebreak = 0x00100073 := by decide

/-! ### The ALU (95_test_vectors.md 1.1 and 2.3) -/

def alu (op : AluOp) (a b : Word) : Word × Flags := (aluResult op a b, aluFlags op a b)

theorem test_alu_add :
    alu .add 0x7FFFFFFF 1 = (0x80000000, ⟨false, false, true, true⟩) ∧
    alu .add 0xFFFFFFFF 1 = (0, ⟨true, true, false, false⟩) ∧
    alu .add 0x80000000 0x80000000 = (0, ⟨true, true, false, true⟩) ∧
    alu .add 0xFFFFFFFF 0xFFFFFFFF = (0xFFFFFFFE, ⟨false, true, true, false⟩) := by decide
theorem test_alu_sub :
    alu .sub 0 1 = (0xFFFFFFFF, ⟨false, true, true, false⟩) ∧
    alu .sub 0x80000000 1 = (0x7FFFFFFF, ⟨false, false, false, true⟩) ∧
    alu .sub 5 5 = (0, ⟨true, false, false, false⟩) ∧
    alu .sub 0x7FFFFFFF 0xFFFFFFFF = (0x80000000, ⟨false, true, true, true⟩) := by decide
theorem test_alu_bitwise :
    alu .and 0xFFFFFFFF 0 = (0, ⟨true, false, false, false⟩) ∧
    alu .or 0x80000000 1 = (0x80000001, ⟨false, false, true, false⟩) ∧
    alu .xor 0xFF 0xAA = (0x55, ⟨false, false, false, false⟩) ∧
    alu .not 0x0000FFFF 0x12345678 = (0xFFFF0000, ⟨false, false, true, false⟩) := by decide
theorem test_alu_shifts :
    alu .sll 1 0x1F = (0x80000000, ⟨false, false, true, false⟩) ∧ alu .sll 1 0x20 = (1, ⟨false, false, false, false⟩) ∧
    alu .srl 0x80000000 0xFFFFFFFF = (1, ⟨false, false, false, false⟩) ∧
    alu .sra 0x80000000 0x1F = (0xFFFFFFFF, ⟨false, false, true, false⟩) ∧
    alu .sra 0x7FFFFFF0 4 = (0x07FFFFFF, ⟨false, false, false, false⟩) := by decide
theorem test_alu_comparisons :
    alu .slt 0x80000000 0x7FFFFFFF = (1, ⟨false, false, false, false⟩) ∧ alu .slt 5 5 = (0, ⟨true, false, false, false⟩) ∧
    alu .sltu 0xFFFFFFFF 1 = (0, ⟨true, false, false, false⟩) ∧ alu .sltu 0 1 = (1, ⟨false, false, false, false⟩) := by
  decide
theorem test_alu_passThroughs :
    alu .passA 0x80000000 7 = (0x80000000, ⟨false, false, true, false⟩) ∧
    alu .passB 0 0x12345000 = (0x12345000, ⟨false, false, false, false⟩) := by decide

/-! ### One step (95_test_vectors.md 1.5 and 2.4 to 2.11): a register, `pc` or a memory word, and the flags -/

/-- `lui x6, 0x80000` (R104). -/
theorem test_lui_negative :
    regAfter 6 (start 0 [] [] 0x80000337) = some (0x80000000, ⟨false, false, true, false⟩) := by decide
/-- `lui x7, 0` (R104). -/
theorem test_lui_zero :
    regAfter 7 (start 0 [(7, 5)] [] 0x000003B7) = some (0, ⟨true, false, false, false⟩) := by decide
/-- `auipc x2, 0xFFFFF` (R105). -/
theorem test_auipc_negative_offset :
    regAfter 2 (start 0x100 [] [] 0xFFFFF117) = some (0xFFFFF100, ⟨false, false, true, false⟩) := by decide
/-- `auipc x3, 0x1` (R105). -/
theorem test_auipc_wraps :
    regAfter 3 (start 0xFFFFF000 [] [] 0x00001197) = some (0, ⟨true, true, false, false⟩) := by decide
/-- `jal x1, -20` (R106). -/
theorem test_jal_links :
    regAfter 1 (start 0x10 [] [] 0xFEDFF0EF) = some (0x14, ⟨true, false, false, false⟩) := by decide
/-- `jal x1, 2` (R106). -/
theorem test_jal_target_masked :
    pcAfter (start 0x10 [] [] 0x002000EF) = some (0x10, ⟨true, false, false, false⟩) := by decide
/-- `jalr x5, 4(x5)` (R107). -/
theorem test_jalr_link_into_its_base :
    regAfter 5 (start 0x20 [(5, 0x200)] [] 0x004282E7) = some (0x24, ⟨false, false, false, false⟩) := by decide
/-- `jalr x1, -1(x5)` (R107). -/
theorem test_jalr_target_masked :
    pcAfter (start 0x20 [(5, 0x100)] [] 0xFFF280E7) = some (0xFC, ⟨false, true, false, false⟩) := by decide
/-- `beq x1, x2, 8` (R110). -/
theorem test_beq_taken :
    pcAfter (start 0x40 [(1, 5), (2, 5)] [] 0x00208463) = some (0x48, ⟨true, false, false, false⟩) := by decide
/-- `beq x0, x0, -0x44` (R110). -/
theorem test_beq_wraps_below_zero :
    pcAfter (start 0x40 [] [] 0xFA000EE3) = some (0xFFFFFFFC, ⟨true, false, false, false⟩) := by decide
/-- `bne x1, x2, 8` (R111). -/
theorem test_bne_taken :
    pcAfter (start 0x40 [(1, 1), (2, 2)] [] 0x00209463) = some (0x48, ⟨false, true, true, false⟩) := by decide
/-- `bne x1, x2, 8` (R111). -/
theorem test_bne_not_taken :
    pcAfter (start 0x40 [(1, 3), (2, 3)] [] 0x00209463) = some (0x44, ⟨true, false, false, false⟩) := by decide
/-- `blt x1, x2, 8` (R112). -/
theorem test_blt_signed_taken :
    pcAfter (start 0x40 [(1, 0xFFFFFFFF), (2, 1)] [] 0x0020C463) =
      some (0x48, ⟨false, false, true, false⟩) := by decide
/-- `blt x1, x2, 8` (R112). -/
theorem test_blt_signed_not_taken :
    pcAfter (start 0x40 [(1, 1), (2, 0xFFFFFFFF)] [] 0x0020C463) =
      some (0x44, ⟨false, true, false, false⟩) := by decide
/-- `bge x1, x2, 8` (R113). -/
theorem test_bge_signed_not_taken :
    pcAfter (start 0x40 [(1, 0xFFFFFFFF), (2, 1)] [] 0x0020D463) =
      some (0x44, ⟨false, false, true, false⟩) := by decide
/-- `bge x1, x2, 8` (R113). -/
theorem test_bge_equal_taken :
    pcAfter (start 0x40 [(1, 7), (2, 7)] [] 0x0020D463) = some (0x48, ⟨true, false, false, false⟩) := by decide
/-- `bltu x1, x2, 8` (R114). -/
theorem test_bltu_taken :
    pcAfter (start 0x40 [(1, 1), (2, 0xFFFFFFFF)] [] 0x0020E463) =
      some (0x48, ⟨false, true, false, false⟩) := by decide
/-- `bltu x1, x2, 8` (R114). -/
theorem test_bltu_not_taken :
    pcAfter (start 0x40 [(1, 0xFFFFFFFF), (2, 1)] [] 0x0020E463) =
      some (0x44, ⟨false, false, true, false⟩) := by decide
/-- `bgeu x1, x2, 8` (R115). -/
theorem test_bgeu_taken :
    pcAfter (start 0x40 [(1, 0xFFFFFFFF), (2, 1)] [] 0x0020F463) =
      some (0x48, ⟨false, false, true, false⟩) := by decide
/-- `bgeu x1, x2, 8` (R115). -/
theorem test_bgeu_not_taken :
    pcAfter (start 0x40 [(1, 0), (2, 1)] [] 0x0020F463) = some (0x44, ⟨false, true, true, false⟩) := by decide
/-- `(funct3 010) x1, x2, 8` (R116). -/
theorem test_branch_010_never_taken :
    pcAfter (start 0x40 [(1, 5), (2, 5)] [] 0x0020A463) = some (0x44, ⟨true, false, false, false⟩) := by decide
/-- `(funct3 011) x1, x2, 8` (R116). -/
theorem test_branch_011_never_taken :
    pcAfter (start 0x40 [(1, 5), (2, 6)] [] 0x0020B463) = some (0x44, ⟨false, true, true, false⟩) := by decide
/-- `lb x5, 3(x1)` (R119). -/
theorem test_lb_sign_extends :
    regAfter 5 (start 0x200 [(1, 0x100)] [(0x100, 0x80FF7F01)] 0x00308283) =
      some (0xFFFFFF80, ⟨false, false, false, false⟩) := by decide
/-- `lb x5, 0(x1)` (R119). -/
theorem test_lb_lane_0 :
    regAfter 5 (start 0x200 [(1, 0x100)] [(0x100, 0x80FF7F01)] 0x00008283) =
      some (1, ⟨false, false, false, false⟩) := by decide
/-- `lh x5, 2(x1)` (R120). -/
theorem test_lh_sign_extends :
    regAfter 5 (start 0x200 [(1, 0x100)] [(0x100, 0x80FF7F01)] 0x00209283) =
      some (0xFFFF80FF, ⟨false, false, false, false⟩) := by decide
/-- `lh x5, 0(x1)` (R120). -/
theorem test_lh_lane_0 :
    regAfter 5 (start 0x200 [(1, 0x100)] [(0x100, 0x80FF7F01)] 0x00009283) =
      some (0x7F01, ⟨false, false, false, false⟩) := by decide
/-- `lw x5, -4(x1)` (R121). -/
theorem test_lw_negative_offset :
    regAfter 5 (start 0x200 [(1, 0x104)] [(0x100, 0x80FF7F01)] 0xFFC0A283) =
      some (0x80FF7F01, ⟨false, true, false, false⟩) := by decide
/-- `lw x1, 0(x1)` (R121). -/
theorem test_lw_into_its_base :
    regAfter 1 (start 0x200 [(1, 0x100)] [(0x100, 0x80FF7F01)] 0x0000A083) =
      some (0x80FF7F01, ⟨false, false, false, false⟩) := by decide
/-- `lbu x5, 3(x1)` (R122). -/
theorem test_lbu_zero_extends :
    regAfter 5 (start 0x200 [(1, 0x100)] [(0x100, 0x80FF7F01)] 0x0030C283) =
      some (0x80, ⟨false, false, false, false⟩) := by decide
/-- `lbu x5, 1(x1)` (R122). -/
theorem test_lbu_lane_1 :
    regAfter 5 (start 0x200 [(1, 0x100)] [(0x100, 0x80FF7F01)] 0x0010C283) =
      some (0x7F, ⟨false, false, false, false⟩) := by decide
/-- `lhu x5, 2(x1)` (R123). -/
theorem test_lhu_zero_extends :
    regAfter 5 (start 0x200 [(1, 0x100)] [(0x100, 0x80FF7F01)] 0x0020D283) =
      some (0x80FF, ⟨false, false, false, false⟩) := by decide
/-- `sb x2, 1(x1)` (R126). -/
theorem test_sb_lane_1 :
    wordAfter 0x100 (start 0x200 [(1, 0x100), (2, 0xAABBCCDD)] [(0x100, 0x11223344)] 0x002080A3) =
      some (0x1122DD44, ⟨false, false, false, false⟩) := by decide
/-- `sb x2, 3(x1)` (R126). -/
theorem test_sb_lane_3 :
    wordAfter 0x100 (start 0x200 [(1, 0x100), (2, 0xAABBCCDD)] [(0x100, 0x11223344)] 0x002081A3) =
      some (0xDD223344, ⟨false, false, false, false⟩) := by decide
/-- `sh x2, 2(x1)` (R127). -/
theorem test_sh_lane_2 :
    wordAfter 0x100 (start 0x200 [(1, 0x100), (2, 0xAABBCCDD)] [(0x100, 0x11223344)] 0x00209123) =
      some (0xCCDD3344, ⟨false, false, false, false⟩) := by decide
/-- `sh x2, 1(x1)` (R127). -/
theorem test_sh_misaligned_dropped :
    wordAfter 0x100 (start 0x200 [(1, 0x100), (2, 0xAABBCCDD)] [(0x100, 0x11223344)] 0x002090A3) =
      some (0x11223344, ⟨false, false, false, false⟩) := by decide
/-- `sw x2, 0(x1)` (R128). -/
theorem test_sw_wraps :
    wordAfter 0x100 (start 0x200 [(1, 0x1100), (2, 0xAABBCCDD)] [(0x100, 0x11223344)] 0x0020A023) =
      some (0xAABBCCDD, ⟨false, false, false, false⟩) := by decide
/-- `sw x2, 2(x1)` (R128). -/
theorem test_sw_misaligned_dropped :
    wordAfter 0x100 (start 0x200 [(1, 0x100), (2, 0xAABBCCDD)] [(0x100, 0x11223344)] 0x0020A123) =
      some (0x11223344, ⟨false, false, false, false⟩) := by decide
/-- `(funct3 011) x2, 0(x1)` (R129). -/
theorem test_store_011_writes_nothing :
    wordAfter 0x100 (start 0x200 [(1, 0x100), (2, 0xAABBCCDD)] [(0x100, 0x11223344)] 0x0020B023) =
      some (0x11223344, ⟨false, false, false, false⟩) := by decide
/-- `(funct3 100) x2, 0(x1)` (R129). -/
theorem test_store_100_writes_nothing :
    wordAfter 0x100 (start 0x200 [(1, 0x100), (2, 0xAABBCCDD)] [(0x100, 0x11223344)] 0x0020C023) =
      some (0x11223344, ⟨false, false, false, false⟩) := by decide
/-- `addi x1, x1, 1` (R131). -/
theorem test_addi_signed_overflow :
    regAfter 1 (start 0 [(1, 0x7FFFFFFF)] [] 0x00108093) = some (0x80000000, ⟨false, false, true, true⟩) := by decide
/-- `addi x1, x1, -1` (R131). -/
theorem test_addi_minus_one :
    regAfter 1 (start 0 [(1, 1)] [] 0xFFF08093) = some (0, ⟨true, true, false, false⟩) := by decide
/-- `slti x2, x1, 1` (R132). -/
theorem test_slti_signed :
    regAfter 2 (start 0 [(1, 0xFFFFFFFF)] [] 0x0010A113) = some (1, ⟨false, false, false, false⟩) := by decide
/-- `slti x2, x1, -1` (R132). -/
theorem test_slti_minus_one :
    regAfter 2 (start 0 [(1, 0)] [] 0xFFF0A113) = some (0, ⟨true, false, false, false⟩) := by decide
/-- `sltiu x2, x1, -1` (R133). -/
theorem test_sltiu_unsigned_minus_one :
    regAfter 2 (start 0 [(1, 5)] [] 0xFFF0B113) = some (1, ⟨false, false, false, false⟩) := by decide
/-- `sltiu x2, x1, 1` (R133). -/
theorem test_sltiu_seqz :
    regAfter 2 (start 0 [(1, 0)] [] 0x0010B113) = some (1, ⟨false, false, false, false⟩) := by decide
/-- `xori x2, x1, -1` (R134). -/
theorem test_xori_not :
    regAfter 2 (start 0 [(1, 0xFFFF)] [] 0xFFF0C113) = some (0xFFFF0000, ⟨false, false, true, false⟩) := by decide
/-- `ori x2, x1, -2048` (R135). -/
theorem test_ori_sign_extended :
    regAfter 2 (start 0 [(1, 0)] [] 0x8000E113) = some (0xFFFFF800, ⟨false, false, true, false⟩) := by decide
/-- `ori x2, x1, 0x0F0` (R135). -/
theorem test_ori_bits :
    regAfter 2 (start 0 [(1, 0xF)] [] 0x0F00E113) = some (0xFF, ⟨false, false, false, false⟩) := by decide
/-- `andi x2, x1, 0x0FF` (R136). -/
theorem test_andi_bits :
    regAfter 2 (start 0 [(1, 0x12345678)] [] 0x0FF0F113) = some (0x78, ⟨false, false, false, false⟩) := by decide
/-- `slli x2, x1, 31` (R137). -/
theorem test_slli_31 :
    regAfter 2 (start 0 [(1, 3)] [] 0x01F09113) = some (0x80000000, ⟨false, false, true, false⟩) := by decide
/-- `slli (funct7 0100000) x2, x1, 4` (R137). -/
theorem test_slli_ignores_funct7 :
    regAfter 2 (start 0 [(1, 1)] [] 0x40409113) = some (0x10, ⟨false, false, false, false⟩) := by decide
/-- `srli x2, x1, 4` (R138). -/
theorem test_srli_fills_with_zero :
    regAfter 2 (start 0 [(1, 0x80000000)] [] 0x0040D113) = some (0x8000000, ⟨false, false, false, false⟩) := by decide
/-- `srli x2, x1, 0` (R138). -/
theorem test_srli_0 :
    regAfter 2 (start 0 [(1, 0x80000000)] [] 0x0000D113) = some (0x80000000, ⟨false, false, true, false⟩) := by decide
/-- `srai x2, x1, 4` (R139). -/
theorem test_srai_fills_with_sign :
    regAfter 2 (start 0 [(1, 0x80000000)] [] 0x4040D113) = some (0xF8000000, ⟨false, false, true, false⟩) := by decide
/-- `srai x2, x1, 31` (R139). -/
theorem test_srai_31 :
    regAfter 2 (start 0 [(1, 0x80000000)] [] 0x41F0D113) = some (0xFFFFFFFF, ⟨false, false, true, false⟩) := by decide
/-- `add x3, x1, x2` (R141). -/
theorem test_add_signed_overflow :
    regAfter 3 (start 0 [(1, 0x7FFFFFFF), (2, 0x7FFFFFFF)] [] 0x002081B3) =
      some (0xFFFFFFFE, ⟨false, false, true, true⟩) := by decide
/-- `add x1, x1, x1` (R141). -/
theorem test_add_source_is_destination :
    regAfter 1 (start 0 [(1, 0x15)] [] 0x001080B3) = some (0x2A, ⟨false, false, false, false⟩) := by decide
/-- `sub x4, x1, x2` (R142). -/
theorem test_sub_borrow :
    regAfter 4 (start 0 [(1, 0), (2, 1)] [] 0x40208233) = some (0xFFFFFFFF, ⟨false, true, true, false⟩) := by decide
/-- `sub x4, x0, x2` (R142). -/
theorem test_sub_neg :
    regAfter 4 (start 0 [(2, 5)] [] 0x40200233) = some (0xFFFFFFFB, ⟨false, true, true, false⟩) := by decide
/-- `sll x3, x1, x2` (R143). -/
theorem test_sll_by_32 :
    regAfter 3 (start 0 [(1, 1), (2, 0x20)] [] 0x002091B3) = some (1, ⟨false, false, false, false⟩) := by decide
/-- `sll x3, x1, x2` (R143). -/
theorem test_sll_by_all_ones :
    regAfter 3 (start 0 [(1, 1), (2, 0xFFFFFFFF)] [] 0x002091B3) =
      some (0x80000000, ⟨false, false, true, false⟩) := by decide
/-- `slt x3, x1, x2` (R144). -/
theorem test_slt_signed :
    regAfter 3 (start 0 [(1, 0x80000000), (2, 0x7FFFFFFF)] [] 0x0020A1B3) =
      some (1, ⟨false, false, false, false⟩) := by decide
/-- `sltu x3, x0, x2` (R145). -/
theorem test_sltu_snez :
    regAfter 3 (start 0 [(2, 7)] [] 0x002031B3) = some (1, ⟨false, false, false, false⟩) := by decide
/-- `xor x3, x1, x2` (R146). -/
theorem test_xor_bits :
    regAfter 3 (start 0 [(1, 0xFF), (2, 0xAA)] [] 0x0020C1B3) = some (0x55, ⟨false, false, false, false⟩) := by decide
/-- `div x3, x1, x2 (funct7 0000001)` (R140). -/
theorem test_xor_of_a_div_word :
    regAfter 3 (start 0 [(1, 6), (2, 7)] [] 0x0220C1B3) = some (1, ⟨false, false, false, false⟩) := by decide
/-- `srl x3, x1, x2` (R147). -/
theorem test_srl_by_2 :
    regAfter 3 (start 0 [(1, 0x10), (2, 2)] [] 0x0020D1B3) = some (4, ⟨false, false, false, false⟩) := by decide
/-- `sra x3, x1, x2` (R148). -/
theorem test_sra_by_2 :
    regAfter 3 (start 0 [(1, 0xFFFFFFF0), (2, 2)] [] 0x4020D1B3) =
      some (0xFFFFFFFC, ⟨false, false, true, false⟩) := by decide
/-- `sra x3, x1, x2` (R148). -/
theorem test_sra_by_33 :
    regAfter 3 (start 0 [(1, 0x80000000), (2, 0x21)] [] 0x4020D1B3) =
      some (0xC0000000, ⟨false, false, true, false⟩) := by decide
/-- `or x3, x1, x2` (R149). -/
theorem test_or_bits :
    regAfter 3 (start 0 [(1, 0xF0), (2, 0xF)] [] 0x0020E1B3) = some (0xFF, ⟨false, false, false, false⟩) := by decide
/-- `and x5, x1, x2` (R150). -/
theorem test_and_bits :
    regAfter 5 (start 0 [(1, 0x2A), (2, 8)] [] 0x0020F2B3) = some (8, ⟨false, false, false, false⟩) := by decide
/-- `(funct7 0100000) and x3, x1, x2` (R140). -/
theorem test_and_ignores_bit_30 :
    regAfter 3 (start 0 [(1, 6), (2, 7)] [] 0x4020F1B3) = some (6, ⟨false, false, false, false⟩) := by decide
/-- `ecall` (R152). -/
theorem test_ecall_goes_on :
    pcAfter (start 8 [] [] 0x00000073) = some (0xC, ⟨true, false, false, false⟩) := by decide
/-- `ebreak` (R153). -/
theorem test_ebreak_goes_on :
    pcAfter (start 8 [] [] 0x00100073) = some (0xC, ⟨true, false, false, false⟩) := by decide
/-- `csrrw x5, 0x300, x1` (R151). -/
theorem test_csrrw_writes_no_register :
    regAfter 5 (start 8 [(1, 0x80000000), (5, 3)] [] 0x300092F3) = some (3, ⟨false, false, true, false⟩) := by decide
/-- `mret` (R151). -/
theorem test_mret_goes_on :
    pcAfter (start 8 [] [] 0x30200073) = some (0xC, ⟨true, false, false, false⟩) := by decide
/-- `fence` (R154). -/
theorem test_fence_goes_on :
    pcAfter (start 8 [] [] 0x0FF0000F) = some (0xC, ⟨true, false, false, false⟩) := by decide
/-- `fence.i` (R154). -/
theorem test_fence_i_goes_on :
    pcAfter (start 8 [] [] 0x0000100F) = some (0xC, ⟨true, false, false, false⟩) := by decide
/-- `(all ones)` (R155). -/
theorem test_all_ones_goes_on :
    pcAfter (start 0x14 [(31, 0x80000001)] [] 0xFFFFFFFF) = some (0x18, ⟨false, false, true, false⟩) := by decide
/-- `(AMO opcode 0101111) amoadd.w x5, x2, (x1)` (R155). -/
theorem test_amo_writes_no_memory :
    wordAfter 0x100 (start 0x14 [(1, 0x100), (2, 1)] [(0x100, 5)] 0x0020A2AF) =
      some (5, ⟨false, false, false, false⟩) := by decide
/-- A misaligned LH receives whatever the oracle gives (R120, D4). -/
theorem test_lh_misaligned_draws (v : Word) (h : Config.misalignedLoadValue 0 = v) :
    regAfter 5 (start 0x200 [(1, 0x100)] [] 0x00109283) = some (v, ⟨false, false, false, false⟩) := by
  subst h; rfl
/-- A load with funct3 111 receives whatever the oracle gives (R124, D5). -/
theorem test_load_111_draws (v : Word) (h : Config.reservedLoadValue 0 = v) :
    regAfter 5 (start 0x200 [(1, 0x100)] [] 0x0000F283) = some (v, ⟨false, false, false, false⟩) := by
  subst h; rfl
/-- A write to register 0 is dropped (R18): `lui x0, 0x12345`. -/
theorem test_register_zero :
    regAfter 0 (start 0 [(0, 5)] [] 0x12345037) = some (0, ⟨false, false, false, false⟩) := by decide
/-- With N = 4 the fetch at `pc = 0x20` reads word 0, and `pc` is not reduced (95_test_vectors.md P6, last cycle). -/
theorem test_fetch_wraps_in_a_small_memory :
    afterStep (loadProgram { State.reset with memSize := ⟨4, by decide⟩, pc := 0x20 } [(0, 0x00108093)]) State.pc =
      some (0x24, ⟨false, false, false, false⟩) := by decide
/-- The last cycle of the source's end-to-end program counts: `and x5, x1, x2` (95_test_vectors.md 1.2). -/
theorem test_cycle_counted :
    (match step { start 0x10 [(1, 42), (2, 8)] [] 0x0020F2B3 with cycleCount := 4 } with
      | .next t => some t.cycleCount | _ => none) = some 5 := by decide

/-! ### Host commands (95_test_vectors.md 2.12) and the state after construction -/

theorem test_set_pc : (hostSetPc State.reset 0x107).pc = 0x104 := by decide
theorem test_load_program :
    let s := loadProgram State.reset
      [(0x10, 0x11111111), (0x13, 0x22222222), (0x10, 0x33333333), (0x1010, 0x44444444)]
    s.wordAt 0x10 = 0x44444444 ∧ s.wordAt 0x0C = 0 ∧ s.wordAt 0x14 = 0 := by decide
theorem test_reset_keeps_memory :
    let s := hostReset { start 4 [(1, 42)] [(0, 0x02A00093)] 0 with cycleCount := 1 }
    s.pc = 0 ∧ s.readReg 1 = 0 ∧ s.cycleCount = 0 ∧ s.wordAt 0 = 0x02A00093 := by decide
theorem test_abi_names :
    abiNames.length = 32 ∧ abiNames.getD 2 "" = "sp" ∧ abiNames.getD 10 "" = "a0" ∧ abiNames.getD 31 "" = "t6" := by
  decide
theorem test_reset_fetches_zero : decode (State.reset.fetch State.reset.pc) = .unrecognized 0 := by decide
theorem test_withFetchWord_runs :
    step (State.reset.withFetchWord 32 0x02A00093) = exec (.addi 1 0 42) (State.reset.withFetchWord 32 0x02A00093) := rfl

/-! ### Memory: the canonical form -/

theorem test_write_of_zero_removes_the_cell :
    Memory.writeByte [(3, 1), (7, 2)] 3 0 = [(7, 2)] ∧ Memory.writeByte [(3, 1), (7, 2)] 5 9 = [(3, 1), (5, 9), (7, 2)] := by
  decide
theorem test_memory_wf_refuses :
    Memory.wf [(3, 1), (3, 2)] = false ∧ Memory.wf [(7, 1), (3, 2)] = false ∧ Memory.wf [(3, 0)] = false ∧
    Memory.wf [(3, 1), (7, 2)] = true := by decide

/-! ### Witnesses: each statement's hypotheses are met, at the boundaries of each clause -/

/-- FieldsAndImmediatesOfEveryWord (and AluBitwiseResultsAndFlags for its bit positions): the bit positions where the clauses meet, on 0x000000E3 (B, +2048) and 0x0010006F
(J, +2048), whose only immediate bit is bit 11. -/
theorem test_witness_immediate_bits :
    (List.range 32).filter (fun i => (decoderOut 0x000000E3).immB.getLsbD i) = [11] ∧
    (List.range 32).filter (fun i => (decoderOut 0x0010006F).immJ.getLsbD i) = [11] := by decide
/-- PackedFormatsRoundTrip: the ranges' ends. -/
theorem test_witness_packed_ranges :
    (-2048 ≤ (0xFFFFF800#32).toInt ∧ (0xFFFFF800#32).toInt ≤ 2047) ∧
    (-2048 ≤ (0x000007FF#32).toInt ∧ (0x000007FF#32).toInt ≤ 2047) ∧
    (-4096 ≤ (0xFFFFF000#32).toInt ∧ (0xFFFFF000#32).toInt ≤ 4094 ∧ (0xFFFFF000#32).toInt % 2 = 0) ∧
    (-4096 ≤ (0x00000FFE#32).toInt ∧ (0x00000FFE#32).toInt ≤ 4094 ∧ (0x00000FFE#32).toInt % 2 = 0) ∧
    (0xFFFFF000#32).toNat % 4096 = 0 ∧
    (-1048576 ≤ (0xFFF00000#32).toInt ∧ (0xFFF00000#32).toInt ≤ 1048574 ∧ (0xFFF00000#32).toInt % 2 = 0) ∧
    (-1048576 ≤ (0x000FFFFE#32).toInt ∧ (0x000FFFFE#32).toInt ≤ 1048574 ∧ (0x000FFFFE#32).toInt % 2 = 0) := by decide
/-- DecodeOfEncodeIsTheInstruction: a well-formed instruction, with unexamined bits set. -/
theorem test_witness_well_formed : (Instr.sub 3 1 2 0b1111111).wellFormed = true := by decide
/-- TableRowsDecodeUnambiguously: `add x3, x1, x2` and ECALL, both rows of their own. -/
theorem test_witness_table_row :
    tableRow (.add 0 0 0 0) ≠ (0x00000073#32, 0x0000007F#32) ∧ tableRow (.add 0 0 0 0) ≠ (0x00000000#32, 0x00000000#32) ∧
    0x002081B3#32 &&& (tableRow (.add 0 0 0 0)).2 = (tableRow (.add 0 0 0 0)).1 ∧
    tableRow .ecall ≠ (0x00000073#32, 0x0000007F#32) ∧ tableRow .ecall ≠ (0x00000000#32, 0x00000000#32) ∧
    0x00000073#32 &&& (tableRow .ecall).2 = (tableRow .ecall).1 := by decide
/-- AluOperationMappingAndInertDefault, UnlistedOpcodesAreNoOps: an OP word, an OP-IMM word, and words outside the ten opcodes. -/
theorem test_witness_opcodes :
    fieldOpcode 0x002081B3 = 0b0110011#7 ∧ fieldOpcode 0x02A00093 = 0b0010011#7 := by decide
theorem test_witness_no_opcode_of_zero :
    fieldOpcode 0x00000000 ∉ [0b0110111#7, 0b0010111#7, 0b1101111#7, 0b1100111#7, 0b1100011#7, 0b0000011#7, 0b0100011#7,
      0b0010011#7, 0b0110011#7, 0b1110011#7] := by decide
theorem test_witness_no_opcode_of_fence :
    fieldOpcode 0x0FF0000F ∉ [0b0110111#7, 0b0010111#7, 0b1101111#7, 0b1100111#7, 0b1100011#7, 0b0000011#7, 0b0100011#7,
      0b0010011#7, 0b0110011#7, 0b1110011#7] := by decide
/-- StepRunsTheDecodedInstruction. -/
theorem test_witness_decoded_at_pc :
    (Instr.addi 1 0 42).wellFormed = true ∧
    decode ((start 0x10 [] [] 0x02A00093).fetch (start 0x10 [] [] 0x02A00093).pc) = .addi 1 0 42 := by decide
/-- AddressesWrapModuloTheMemorySize: 0x100 and 0x1100 at N = 1024, and the top of the address space. -/
theorem test_witness_addresses_4N_apart :
    (0x1100#32).toNat = (0x100#32).toNat + 4 * State.reset.memSize.words ∧
    (0xFFFFFFFF#32).toNat = (0xFFFFEFFF#32).toNat + 4 * State.reset.memSize.words := by decide
/-- AlignedLoadsExtend, MisalignedLoadsDrawTheirValue, StoreByteWritesOneByte, StoreHalfwordWritesTwoBytesOrNone,
StoreWordWritesFourBytesOrNone, DataReadsAreLittleEndianLanes, DataWritesAreMasked: addresses of each alignment, formed
by `x1 + imm` in a state whose memory is canonical. -/
theorem test_witness_alignments :
    let s := start 0x200 [(1, 0x100)] [(0x100, 0x11223344)] 0
    Memory.wf s.mem = true ∧ (s.readReg 1 + (0#12).signExtend 32).toNat % 4 = 0 ∧
    (s.readReg 1 + (2#12).signExtend 32).toNat % 2 = 0 ∧ (s.readReg 1 + (2#12).signExtend 32).toNat % 4 ≠ 0 ∧
    (s.readReg 1 + (0xFFF#12).signExtend 32).toNat % 2 ≠ 0 ∧ (s.readReg 1 + (0xFFF#12).signExtend 32).toNat % 4 ≠ 0 := by
  decide
/-- DataWritesAreMasked and the three store statements: the last selected byte, the byte after it, the byte before the first, and a
selected byte reached 4N higher. -/
theorem test_witness_selected_bytes :
    let n := State.reset.memSize
    (3 < widthBytes .word ∧ byteCell n 0x103 = byteCell n 0x100 + 3) ∧ (0 < widthBytes .byte ∧ byteCell n 0x1101 = byteCell n 0x101 + 0) ∧
    (∀ k, k < widthBytes .word → byteCell n 0x104 ≠ byteCell n 0x100 + k) ∧
    (∀ k, k < widthBytes .half → byteCell n 0x101 ≠ byteCell n 0x102 + k) := by decide
/-- LuiWritesTheUpperImmediate, AuipcAddsTheUpperImmediateToPc, JalLinksAndJumps, JalrLinksAndJumps,
AddiAddsTheImmediate, AddAddsTheRegisters, SubSubtractsTheRegisters: a word under each mask. -/
theorem test_witness_masks :
    0x123452B7#32 &&& 0x0000007F#32 = 0x00000037#32 ∧ 0xFFFFF117#32 &&& 0x0000007F#32 = 0x00000017#32 ∧
    0xFFDFF06F#32 &&& 0x0000007F#32 = 0x0000006F#32 ∧ 0x000290E7#32 &&& 0x0000007F#32 = 0x00000067#32 ∧
    0x02A00093#32 &&& 0x0000707F#32 = 0x00000013#32 ∧ 0x022081B3#32 &&& 0x4000707F#32 = 0x00000033#32 ∧
    0x40208233#32 &&& 0x4000707F#32 = 0x40000033#32 := by decide
/-- JalLinksAndJumps: `jal x1, 8` is the word 0x008000EF, whose flag operands are x0 and x8. -/
theorem test_witness_jal_word :
    0x008000EF#32 = encode (.jal 1 4) ∧ (0x008000EF#32).extractLsb' 15 5 = 0#5 ∧ (0x008000EF#32).extractLsb' 20 5 = 8#5 := by
  decide
/-- BranchesFollowTheirConditions: x1 = 0xFFFFFFFF, x2 = 1 meets BNE, BLT and BGEU and fails BEQ, BGE and BLTU; x1 = x1
does the reverse for BEQ, BGE, BGEU. -/
theorem test_witness_conditions :
    let s := start 0x40 [(1, 0xFFFFFFFF), (2, 1)] [] 0
    s.readReg 1 ≠ s.readReg 2 ∧ (s.readReg 1).toInt < (s.readReg 2).toInt ∧ (s.readReg 2).toNat ≤ (s.readReg 1).toNat ∧
    ¬ (s.readReg 2).toInt ≤ (s.readReg 1).toInt ∧ ¬ (s.readReg 1).toNat < (s.readReg 2).toNat ∧
    (s.readReg 2).toNat < (s.readReg 1).toNat ∧ ¬ (s.readReg 2).toInt < (s.readReg 1).toInt := by decide
/-- BranchLoadStoreWordsDecodeByFunct3, SystemWordsAreNoOps: a word of each opcode. -/
theorem test_witness_opcode_words :
    fieldOpcode 0x0020A463 = 0b1100011#7 ∧ fieldOpcode 0x0000F283 = 0b0000011#7 ∧ fieldOpcode 0x0020F023 = 0b0100011#7 ∧
    fieldOpcode 0x300092F3 = 0b1110011#7 ∧ fieldOpcode 0x00000073 = 0b1110011#7 := by decide
/-- StoredInstructionRunsNext: `sw x2, 0(x1)` at 0x200 with x1 = 0x204, and with x1 = 0x1204, 4N higher. -/
theorem test_witness_store_over_the_next :
    let s := start 0x200 [(1, 0x204), (2, 0x00700293)] [] 0x0020A023
    Memory.wf s.mem = true ∧ (s.readReg 1 + (0#12).signExtend 32).toNat % 4 = 0 ∧
    (s.readReg 1 + (0#12).signExtend 32).toNat / 4 % s.memSize.words = (s.pc + 4#32).toNat / 4 % s.memSize.words := by
  decide
theorem test_witness_store_over_the_next_wrapped :
    let s := start 0x200 [(1, 0x1204), (2, 0x00700293)] [] 0x0020A023
    Memory.wf s.mem = true ∧ (s.readReg 1 + (0#12).signExtend 32).toNat % 4 = 0 ∧
    (s.readReg 1 + (0#12).signExtend 32).toNat / 4 % s.memSize.words = (s.pc + 4#32).toNat / 4 % s.memSize.words := by
  decide
/-- UnexaminedBitsChangeNothing: a word of each clause with the bits set. -/
theorem test_witness_unexamined_bits :
    fieldOpcode 0x022081B3 = 0b0110011#7 ∧                                       -- mul
    (fieldOpcode 0x4020F1B3 = 0b0110011#7 ∧ fieldFunct3 0x4020F1B3 ≠ 0b000#3 ∧ fieldFunct3 0x4020F1B3 ≠ 0b101#3) ∧
    (fieldOpcode 0x40409113 = 0b0010011#7 ∧ fieldFunct3 0x40409113 = 0b001#3) ∧  -- slli with funct7 0100000
    (fieldOpcode 0x4240D113 = 0b0010011#7 ∧ fieldFunct3 0x4240D113 = 0b101#3) ∧  -- srai with funct7 0100001
    fieldOpcode 0x000290E7 = 0b1100111#7 := by decide                            -- jalr with funct3 001
/-- StepKeepsTheInvariant, HostCommandsKeepTheInvariant: a state with the invariant that is not the constructed one. -/
theorem test_witness_invariant :
    (start 0x200 [(1, 0x100), (2, 0xAABBCCDD)] [(0x100, 0x11223344), (0x1FFC, 1)] 0x002080A3).wf = true := by decide
/-- The invariant refuses a misaligned `pc`, a cell beyond 4N, and memory out of form. -/
theorem test_invariant_refuses :
    State.wf { State.reset with pc := 2 } = false ∧ State.wf { State.reset with mem := [(4096, 1)] } = false ∧
    State.wf { State.reset with mem := [(0, 0)] } = false := by decide
/-- A next state exists for the statements that assume one: a step, an instruction of each kind, and each host command. -/
theorem test_witness_next_state (s : State) :
    (∃ t, step s = .next t) → (∃ t, hostDo .clock s = .next t) ∧ (∃ t, hostDo (.runCycles 0) s = .next t) ∧
      (∃ t, hostDo .reset s = .next t) ∧ (∃ t, hostDo (.loadProgram [(0x10, 1), (0x13, 2)]) s = .next t) ∧
      (∃ t, hostDo (.setPc 0x107) s = .next t) := fun h => ⟨h, ⟨s, rfl⟩, ⟨_, rfl⟩, ⟨_, rfl⟩, ⟨_, rfl⟩⟩
theorem test_witness_step : ∃ t, step (start 0x200 [(1, 0x100), (2, 5)] [] 0x002080A3) = .next t := ⟨_, rfl⟩
/-- RunCyclesIsExactlyNClocks. -/
theorem test_witness_run : ∃ t, runCycles 2 (start 0 [] [] 0x02A00093) = .next t := ⟨_, rfl⟩
/-- OnlyStoresChangeMemory, OnlyTheDestinationRegisterChanges, TransfersLandOnMultiplesOfFour,
CycleCountIsUnobservable. -/
theorem test_witness_exec :
    (writesMemory (.jal 1 4) = false ∧ destination (.jal 1 4) = some 1 ∧ ∃ t, exec (.jal 1 4) State.reset = .next t) ∧
    (destination (.sb 1 2 0) = none ∧ ∃ t, exec (.sb 1 2 0) State.reset = .next t) := ⟨⟨rfl, rfl, _, rfl⟩, rfl, _, rfl⟩
/-- SelfLoopChangesOnlyTheCycleCount. -/
theorem test_witness_self_loop :
    let s := { start 0x20 [] [] 0x0000006F with flags := ⟨true, false, false, false⟩ }
    s.fetch s.pc = 0x0000006F#32 ∧ s.pc.toNat % 4 = 0 ∧ s.flags = ⟨true, false, false, false⟩ := by decide
/-- LoadProgramWritesWordsInOrder: a skipped address, a written one, the same word 4N higher, another word. -/
theorem test_witness_load_program :
    (0x13#32).toNat % 4 ≠ 0 ∧ Memory.wf State.reset.mem = true ∧ (0x10#32).toNat % 4 = 0 ∧
    (0x1013#32).toNat / 4 % State.reset.memSize.words = (0x10#32).toNat / 4 % State.reset.memSize.words ∧
    (0x14#32).toNat / 4 % State.reset.memSize.words ≠ (0x10#32).toNat / 4 % State.reset.memSize.words := by decide
/-- AlignedLoadsExtend, ImmediateComparesAndLogic, ImmediateShiftsUseTheShamtField, RegisterShiftsAreModulo32,
RegisterComparesAndLogic: the equations by which they name an address, a register's value, an immediate, a shift
amount or flags. -/
theorem test_witness_named_values :
    let s := start 0 [(1, 0x80000000), (2, 0x21)] [] 0
    0x80000004#32 = s.readReg 1 + (4#12).signExtend 32 ∧ 0x80000000#32 = s.readReg 1 ∧ 0xFFFFFFFF#32 = (0xFFF#12).signExtend 32 ∧
    1 = (s.readReg 2).toNat % 32 ∧ addFlags 0x80000000 4 = addFlags (s.readReg 1) ((4#12).signExtend 32) := by decide

/-- ReservedLoadsDrawTheirValue: each of its three instructions. -/
theorem test_witness_reserved_loads :
    decode 0x0000B283 = .loadReserved011 5 1 0 ∧ decode 0x0000E283 = .loadReserved110 5 1 0 ∧
    decode 0x0000F283 = .loadReserved111 5 1 0 := by decide

end Sys2Proof.Machine
end

section
/-! What one instruction can do, as an inversion principle over the eight shapes of a cycle, and from it what every
instruction leaves in each field. -/

namespace Sys2Proof.Machine

/-! ### Shapes that Laws/Step.lean has no field lemmas for -/

@[simp] theorem loadReserved_pc (s : State) (rd rs1 : RegIdx) (imm : BitVec 12) :
    (s.loadReserved rd rs1 imm).pc = s.pc + 4#32 := by simp [loadReserved_eq]
@[simp] theorem loadReserved_mem (s : State) (rd rs1 : RegIdx) (imm : BitVec 12) :
    (s.loadReserved rd rs1 imm).mem = s.mem := by simp [loadReserved_eq]
@[simp] theorem loadReserved_cycleCount (s : State) (rd rs1 : RegIdx) (imm : BitVec 12) :
    (s.loadReserved rd rs1 imm).cycleCount = s.cycleCount + 1#64 := by simp [loadReserved_eq]
@[simp] theorem loadReserved_memSize (s : State) (rd rs1 : RegIdx) (imm : BitVec 12) :
    (s.loadReserved rd rs1 imm).memSize = s.memSize := by simp [loadReserved_eq]
theorem loadReserved_readReg_ne (s : State) (rd rs1 r : RegIdx) (imm : BitVec 12) (hr : r ≠ rd) :
    (s.loadReserved rd rs1 imm).readReg r = s.readReg r := by
  rw [loadReserved_eq, advance_readReg, readReg_writeReg_ne _ _ _ _ hr, withDraws_readReg, setFlags_readReg]

@[simp] theorem storeNothing_pc (s : State) (rs1 : RegIdx) (imm : BitVec 12) :
    (s.storeNothing rs1 imm).pc = s.pc + 4#32 := rfl
@[simp] theorem storeNothing_mem (s : State) (rs1 : RegIdx) (imm : BitVec 12) :
    (s.storeNothing rs1 imm).mem = s.mem := rfl
@[simp] theorem storeNothing_cycleCount (s : State) (rs1 : RegIdx) (imm : BitVec 12) :
    (s.storeNothing rs1 imm).cycleCount = s.cycleCount + 1#64 := rfl
@[simp] theorem storeNothing_memSize (s : State) (rs1 : RegIdx) (imm : BitVec 12) :
    (s.storeNothing rs1 imm).memSize = s.memSize := rfl
@[simp] theorem storeNothing_readReg (s : State) (rs1 r : RegIdx) (imm : BitVec 12) :
    (s.storeNothing rs1 imm).readReg r = s.readReg r := rfl

@[simp] theorem inert_pc (s : State) (rs1 rs2 : RegIdx) : (s.inert rs1 rs2).pc = s.pc + 4#32 := rfl
@[simp] theorem inert_mem (s : State) (rs1 rs2 : RegIdx) : (s.inert rs1 rs2).mem = s.mem := rfl
@[simp] theorem inert_cycleCount (s : State) (rs1 rs2 : RegIdx) :
    (s.inert rs1 rs2).cycleCount = s.cycleCount + 1#64 := rfl
@[simp] theorem inert_memSize (s : State) (rs1 rs2 : RegIdx) : (s.inert rs1 rs2).memSize = s.memSize := rfl
@[simp] theorem inert_readReg (s : State) (rs1 rs2 r : RegIdx) : (s.inert rs1 rs2).readReg r = s.readReg r := rfl

/-! ### The eight shapes as one relation -/

/-- `t` is what a cycle of one of the eight shapes makes of `s`, with the register it writes (`destination`), whether
it can write memory (`writesMemory`) and whether it can transfer control (`transfersControl`). -/
inductive Cycle (s : State) : Option RegIdx → Bool → Bool → State → Prop where
  | aluToReg (op rd a b) : Cycle s (some rd) false false (s.aluToReg op rd a b)
  | linkAndJump (rd a b target) : Cycle s (some rd) false true (s.linkAndJump rd a b target)
  | branch (f3 rs1 rs2 off) : Cycle s none false true (s.branch f3 rs1 rs2 off)
  | load (w sg rd rs1 imm) : Cycle s (some rd) false false (s.load w sg rd rs1 imm)
  | loadReserved (rd rs1 imm) : Cycle s (some rd) false false (s.loadReserved rd rs1 imm)
  | store (w rs1 rs2 imm) : Cycle s none true false (s.store w rs1 rs2 imm)
  | storeNothing (rs1 imm) : Cycle s none false false (s.storeNothing rs1 imm)
  | inert (rs1 rs2) : Cycle s none false false (s.inert rs1 rs2)

/-- Every instruction completes, with a cycle of one of the eight shapes. -/
theorem exec_eq_next_cycle (i : Instr) (s : State) :
    ∃ t, exec i s = .next t ∧ Cycle s (destination i) (writesMemory i) (transfersControl i) t := by
  obtain ⟨op, rd, a, b, h, hd, hw, hc⟩ | ⟨rd, a, b, target, h, hd, hw, hc⟩ | ⟨f3, rs1, rs2, off, h, hd, hw, hc⟩ |
    ⟨w, sg, rd, rs1, imm, h, hd, hw, hc⟩ | ⟨rd, rs1, imm, h, hd, hw, hc⟩ | ⟨w, rs1, rs2, imm, h, hd, hw, hc⟩ |
    ⟨rs1, imm, h, hd, hw, hc⟩ | ⟨rs1, rs2, h, hd, hw, hc⟩ := exec_shape i s <;>
    exact ⟨_, h, by rw [hd, hw, hc]; constructor⟩

/-- The next state of an instruction is that of a cycle of one of the eight shapes. -/
theorem cycle_of_exec {i : Instr} {s t : State} (h : exec i s = .next t) :
    Cycle s (destination i) (writesMemory i) (transfersControl i) t := by
  obtain ⟨t', h', hcycle⟩ := exec_eq_next_cycle i s
  cases h.symm.trans h'
  exact hcycle

/-! ### What a cycle leaves in each field -/

section
variable {s t : State} {dest : Option RegIdx} {writes transfers : Bool}

/-- A cycle goes on at `pc + 4` or at a masked target (R98). -/
theorem Cycle.pc_eq (h : Cycle s dest writes transfers t) :
    t.pc = s.pc + 4#32 ∨ ∃ target, t.pc = alignPc target := by
  cases h with
  | linkAndJump rd a b target => exact .inr ⟨target, linkAndJump_pc ..⟩
  | branch f3 rs1 rs2 off =>
    rw [branch_pc]
    split
    · exact .inr ⟨_, rfl⟩
    · exact .inl rfl
  | aluToReg | load | loadReserved | store | storeNothing | inert => simp

/-- A cycle leaves memory as it is, or as one write of the data port leaves it (R43). -/
theorem Cycle.mem_eq (h : Cycle s dest writes transfers t) :
    t.mem = s.mem ∨ ∃ w addr v, t.mem = (s.memWrite w addr v).mem := by
  cases h with
  | store w rs1 rs2 imm => exact .inr ⟨w, _, _, store_mem ..⟩
  | aluToReg | linkAndJump | branch | load | loadReserved | storeNothing | inert => simp

theorem Cycle.memSize_eq (h : Cycle s dest writes transfers t) : t.memSize = s.memSize := by
  cases h <;> simp

/-- A cycle advances the counter by one (R99). -/
theorem Cycle.cycleCount_eq (h : Cycle s dest writes transfers t) : t.cycleCount = s.cycleCount + 1#64 := by
  cases h <;> simp

/-- A cycle changes no register but the one it writes (R20, R21). -/
theorem Cycle.readReg_eq (h : Cycle s dest writes transfers t) {r : RegIdx} (hr : dest ≠ some r) :
    t.readReg r = s.readReg r := by
  cases h with
  | aluToReg op rd a b =>
    have hne : r ≠ rd := by rintro rfl; exact hr rfl
    simp [aluToReg_readReg, hne]
  | linkAndJump rd a b target =>
    have hne : r ≠ rd := by rintro rfl; exact hr rfl
    simp [linkAndJump_readReg, hne]
  | load w sg rd rs1 imm => exact load_readReg_ne _ _ _ _ _ _ _ (by rintro rfl; exact hr rfl)
  | loadReserved rd rs1 imm => exact loadReserved_readReg_ne _ _ _ _ _ (by rintro rfl; exact hr rfl)
  | branch | store | storeNothing | inert => simp

end

end Sys2Proof.Machine
end

section
/-! The invariant of the machine is kept by every step (spec/10_state.md R24; spec/20_memory.md R38, R39, R43). -/

namespace Sys2Proof.Machine

theorem State.wf_iff (s : State) :
    s.wf = true ↔ s.pc.extractLsb' 0 2 = 0#2 ∧ Memory.wf s.mem = true ∧
      Memory.below (4 * s.memSize.words) s.mem = true := by
  simp [State.wf, and_assoc]

theorem add_four_low_bits {pc : Word} (h : pc.extractLsb' 0 2 = 0#2) : (pc + 4#32).extractLsb' 0 2 = 0#2 := by
  have h0 := congrArg BitVec.toNat h
  apply BitVec.eq_of_toNat_eq
  simp only [BitVec.extractLsb'_toNat, BitVec.toNat_add, BitVec.toNat_ofNat] at h0 ⊢
  omega

/-- A masked target is a multiple of 4 (R98). -/
theorem alignPc_low_bits (target : Word) : (alignPc target).extractLsb' 0 2 = 0#2 := by
  apply BitVec.eq_of_getLsbD_eq
  intro k hk
  have : k = 0 ∨ k = 1 := by omega
  rcases this with rfl | rfl <;> simp [alignPc]

/-- Every cycle keeps the invariant. -/
theorem Cycle.keeps_wf {s t : State} {dest : Option RegIdx} {writes transfers : Bool}
    (h : Cycle s dest writes transfers t) (hs : s.wf = true) : t.wf = true := by
  rw [State.wf_iff] at hs ⊢
  obtain ⟨hpc, hwf, hbelow⟩ := hs
  rw [h.memSize_eq]
  refine ⟨?_, ?_⟩
  · obtain hnext | ⟨target, htarget⟩ := h.pc_eq
    · rw [hnext]
      exact add_four_low_bits hpc
    · rw [htarget]
      exact alignPc_low_bits target
  · obtain hsame | ⟨w, addr, v, hwrite⟩ := h.mem_eq
    · rw [hsame]
      exact ⟨hwf, hbelow⟩
    · rw [hwrite]
      exact ⟨memWrite_mem_wf s w addr v hwf, memWrite_mem_below s w addr v hbelow⟩

/-- Settles O47: a step is one cycle, and a cycle moves `pc` to a multiple of 4 and writes at most through the data
port. -/
theorem stepKeepsTheInvariant : Obligations.StepKeepsTheInvariant :=
  fun _ _ hs hstep => (cycle_of_exec hstep).keeps_wf hs

end Sys2Proof.Machine
end

section
/-! Registers: the write port, and which registers an instruction changes (spec/10_state.md R18, R20, R21). -/

namespace Sys2Proof.Machine

/-- Settles O51: a cycle changes no register but the one it writes. -/
theorem onlyTheDestinationRegisterChanges : Obligations.OnlyTheDestinationRegisterChanges := by
  intro i s t h
  have hcycle := cycle_of_exec h
  refine ⟨fun hnone r => hcycle.readReg_eq (by simp [hnone]), fun rd hsome r hr => hcycle.readReg_eq ?_⟩
  simpa [hsome] using hr.symm

theorem writePort_false (s : State) (rd : RegIdx) (v : Word) : s.writePort rd v false = s := rfl

theorem writePort_true (s : State) (rd : RegIdx) (v : Word) : s.writePort rd v true = s.writeReg rd v := rfl

theorem writeReg_zero (s : State) (v : Word) : s.writeReg 0#5 v = s := rfl

/-- Settles O18: with enable false the port passes the state on; with enable true it is `writeReg`. -/
theorem registerZeroAndTheWritePort : Obligations.RegisterZeroAndTheWritePort := by
  intro s rd r value enable
  cases enable with
  | false => simp [writePort_false]
  | true => simp [writePort_true, writePort_false, writeReg_zero, readReg_writeReg, and_comm]

end Sys2Proof.Machine
end

section
/-! The flags and the cycle counter are written by every instruction and read by none (spec/10_state.md R26, R27). -/

namespace Sys2Proof.Machine

/-- `s` with other flags and another cycle count. -/
def State.withUnread (s : State) (f : Flags) (n : BitVec 64) : State := { s with flags := f, cycleCount := n }

/-! ### Each shape, from a state with other flags and another count

A shape writes the flags first and adds one to the count last, and its operands read registers, `pc` and memory only. -/

section
variable (s : State) (f : Flags) (n : BitVec 64)

theorem aluToReg_withUnread (op : AluOp) (rd : RegIdx) (a b : Word) :
    (s.withUnread f n).aluToReg op rd a b = { s.aluToReg op rd a b with cycleCount := n + 1#64 } :=
  congrArg State.advance (writeReg_withCycleCount (s.setFlags _) n rd _)

theorem linkAndJump_withUnread (rd : RegIdx) (a b target : Word) :
    (s.withUnread f n).linkAndJump rd a b target = { s.linkAndJump rd a b target with cycleCount := n + 1#64 } :=
  congrArg (State.jumpTo · target) (writeReg_withCycleCount (s.setFlags _) n rd _)

theorem branch_withUnread (f3 : BitVec 3) (rs1 rs2 : RegIdx) (off : BitVec 12) :
    (s.withUnread f n).branch f3 rs1 rs2 off = { s.branch f3 rs1 rs2 off with cycleCount := n + 1#64 } := rfl

theorem load_withUnread (w : Width) (sg : Bool) (rd rs1 : RegIdx) (imm : BitVec 12) :
    (s.withUnread f n).load w sg rd rs1 imm = { s.load w sg rd rs1 imm with cycleCount := n + 1#64 } := by
  rcases h : s.memRead w (s.baseOffset rs1 imm) with _ | raw
  · rw [load_of_misaligned s w sg rd rs1 imm h, load_of_misaligned (s.withUnread f n) w sg rd rs1 imm h]
    exact congrArg State.advance (writeReg_withCycleCount { s.setFlags _ with draws := s.draws + 1 } n rd _)
  · rw [load_of_memRead s w sg rd rs1 imm raw h, load_of_memRead (s.withUnread f n) w sg rd rs1 imm raw h]
    exact congrArg State.advance (writeReg_withCycleCount (s.setFlags _) n rd _)

theorem loadReserved_withUnread (rd rs1 : RegIdx) (imm : BitVec 12) :
    (s.withUnread f n).loadReserved rd rs1 imm = { s.loadReserved rd rs1 imm with cycleCount := n + 1#64 } :=
  congrArg State.advance (writeReg_withCycleCount { s.setFlags _ with draws := s.draws + 1 } n rd _)

theorem store_withUnread (w : Width) (rs1 rs2 : RegIdx) (imm : BitVec 12) :
    (s.withUnread f n).store w rs1 rs2 imm = { s.store w rs1 rs2 imm with cycleCount := n + 1#64 } :=
  congrArg State.advance (memWrite_withCycleCount (s.setFlags _) n w _ _)

theorem storeNothing_withUnread (rs1 : RegIdx) (imm : BitVec 12) :
    (s.withUnread f n).storeNothing rs1 imm = { s.storeNothing rs1 imm with cycleCount := n + 1#64 } := rfl

theorem inert_withUnread (rs1 rs2 : RegIdx) :
    (s.withUnread f n).inert rs1 rs2 = { s.inert rs1 rs2 with cycleCount := n + 1#64 } := rfl

end

/-! ### Every instruction -/

/-- From a state with other flags and another count, an instruction ends in the same state but for the count. -/
theorem exec_withUnread {i : Instr} {s t : State} (f : Flags) (n : BitVec 64) (h : exec i s = .next t) :
    exec i (s.withUnread f n) = .next { t with cycleCount := n + 1#64 } := by
  cases i with
  | lui | auipc | addi | slti | sltiu | xori | ori | andi | slli | srli | srai | add | sub | sll | slt | sltu | xor
  | srl | sra | or | and =>
    cases h
    exact congrArg Host.Outcome.next (aluToReg_withUnread s f n ..)
  | jal | jalr =>
    cases h
    exact congrArg Host.Outcome.next (linkAndJump_withUnread s f n ..)
  | beq | bne | blt | bge | bltu | bgeu | branchReserved =>
    cases h
    exact congrArg Host.Outcome.next (branch_withUnread s f n ..)
  | lb | lh | lw | lbu | lhu =>
    cases h
    exact congrArg Host.Outcome.next (load_withUnread s f n ..)
  | loadReserved011 | loadReserved110 | loadReserved111 =>
    cases h
    exact congrArg Host.Outcome.next (loadReserved_withUnread s f n ..)
  | sb | sh | sw =>
    cases h
    exact congrArg Host.Outcome.next (store_withUnread s f n ..)
  | storeReserved011 | storeReserved1xx =>
    cases h
    exact congrArg Host.Outcome.next (storeNothing_withUnread s f n ..)
  | ecall | ebreak | system | miscMem | unrecognized =>
    cases h
    exact congrArg Host.Outcome.next (inert_withUnread s f n ..)

/-- Settles O53: the counter advances in every cycle, and no instruction reads it. -/
theorem cycleCountIsUnobservable : Obligations.CycleCountIsUnobservable :=
  fun _ s _ n h => ⟨(cycle_of_exec h).cycleCount_eq, exec_withUnread s.flags n h⟩

/-- Settles O52: with the count as it was, other flags lead to the same next state. -/
theorem flagsAreNeverRead : Obligations.FlagsAreNeverRead := by
  intro i s f
  obtain ⟨t, h, hcycle⟩ := exec_eq_next_cycle i s
  calc exec i { s with flags := f }
      = .next { t with cycleCount := s.cycleCount + 1#64 } := exec_withUnread f s.cycleCount h
    _ = .next t := by rw [← hcycle.cycleCount_eq]
    _ = exec i s := h.symm

end Sys2Proof.Machine
end

section
/-! Addresses by their numbers, and what one write of the data port leaves in the bytes and words of memory and in the
rest of the state (spec/20_memory.md R39, R40, R43). -/

namespace Sys2Proof.Machine

/-! ### Addresses -/

/-- The alignment an access needs is divisibility by its width (R47). -/
theorem aligned_iff (w : Width) (a : Word) : aligned w a = true ↔ a.toNat % widthBytes w = 0 := by
  cases w with
  | byte => simp [aligned, widthBytes, Nat.mod_one]
  | half | word => simp [aligned, widthBytes, BitVec.toNat_eq]

theorem aligned_eq_false_iff (w : Width) (a : Word) : aligned w a = false ↔ a.toNat % widthBytes w ≠ 0 := by
  rw [← Bool.not_eq_true, aligned_iff]

/-- An aligned access stays in one word (R40). -/
theorem lane_add_widthBytes_le {w : Width} {a : Word} (h : aligned w a = true) : lane a + widthBytes w ≤ 4 := by
  rw [aligned_iff] at h
  rw [lane_eq]
  cases w <;> simp only [widthBytes] at h ⊢ <;> omega

/-- Addresses `4N` apart select one word (R39). -/
theorem wordIndex_eq_of_add_size {n : MemSize} {a b : Word} (h : b.toNat = a.toNat + 4 * n.words) :
    wordIndex n b = wordIndex n a := by
  rw [wordIndex_eq, wordIndex_eq, h, Nat.add_mul_div_left _ _ (by decide), Nat.add_mod_right]

theorem wordAt_congr (s : State) {a b : Word} (h : wordIndex s.memSize b = wordIndex s.memSize a) :
    s.wordAt b = s.wordAt a := congrArg (Memory.readWord s.mem) h

/-! ### One write of the data port -/

section
variable (s : State) (w : Width) (a b v : Word)

/-- No write changes anything but memory. -/
theorem memWrite_frame : { s.memWrite w a v with mem := s.mem } = s := by
  simp

/-- The `k`-th cell of an aligned write holds byte `k` of the value (R43). -/
theorem byteAt_memWrite_selected {k : Nat} (hm : Memory.wf s.mem = true) (ha : aligned w a = true)
    (hk : k < widthBytes w) (hb : byteCell s.memSize b = byteCell s.memSize a + k) :
    (s.memWrite w a v).byteAt b = v.extractLsb' (8 * k) 8 := by
  rw [State.byteAt, memWrite_memSize, readByte_memWrite _ _ _ _ _ hm, if_pos ⟨ha, by omega, by omega⟩, hb,
    Nat.add_sub_cancel_left]

/-- A write leaves every byte outside the cells its width covers (R43). -/
theorem byteAt_memWrite_other (hm : Memory.wf s.mem = true)
    (hb : ∀ k, k < widthBytes w → byteCell s.memSize b ≠ byteCell s.memSize a + k) :
    (s.memWrite w a v).byteAt b = s.byteAt b := by
  rw [State.byteAt, memWrite_memSize, readByte_memWrite _ _ _ _ _ hm, if_neg, State.byteAt]
  rintro ⟨-, hle, hlt⟩
  exact hb (byteCell s.memSize b - byteCell s.memSize a) (by omega) (by omega)

/-- A write leaves every word but the one its address selects (R43). -/
theorem wordAt_memWrite_other (hm : Memory.wf s.mem = true) (hi : wordIndex s.memSize b ≠ wordIndex s.memSize a) :
    (s.memWrite w a v).wordAt b = s.wordAt b := by
  have hlane : ∀ k, k < 4 → Memory.readByte (s.memWrite w a v).mem (4 * wordIndex s.memSize b + k) =
      Memory.readByte s.mem (4 * wordIndex s.memSize b + k) := by
    intro k hk
    rw [readByte_memWrite _ _ _ _ _ hm, if_neg]
    rintro ⟨ha, hle, hlt⟩
    have := lane_add_widthBytes_le ha
    rw [byteCell] at hle hlt
    omega
  have h0 := hlane 0 (by decide)
  rw [Nat.add_zero] at h0
  simp only [State.wordAt, Memory.readWord, memWrite_memSize, h0, hlane 1, hlane 2, hlane 3, Nat.reduceLT]

end

/-- The words a STORE leaves are those its write of the data port leaves (R125). -/
theorem store_wordAt (s : State) (w : Width) (rs1 rs2 : RegIdx) (imm : BitVec 12) (a : Word) :
    (s.store w rs1 rs2 imm).wordAt a = (s.memWrite w (s.baseOffset rs1 imm) (s.readReg rs2)).wordAt a := by
  simp only [State.wordAt, store_mem, store_memSize, memWrite_memSize]

/-- One entry of `load_program` is a word write of the data port (R43, R45). -/
theorem loadProgram_singleton (s : State) (a w : Word) : loadProgram s [(a, w)] = s.memWrite .word a w := rfl

theorem loadProgram_append (s : State) (es fs : List (Word × Word)) :
    loadProgram s (es ++ fs) = loadProgram (loadProgram s es) fs := List.foldl_append

end Sys2Proof.Machine
end

section
/-! Memory: addressing, the data port, a stored instruction, and `load_program` (spec/20_memory.md R39 to R45, R55). -/

namespace Sys2Proof.Machine

/-- Settles O19: addresses `4N` apart have one word index, through which every read of a word goes. -/
theorem addressesWrapModuloTheMemorySize : Obligations.AddressesWrapModuloTheMemorySize := by
  intro s a
  refine ⟨by rw [State.wordAt, wordIndex_eq], Nat.mod_lt _ s.memSize.pos, fun b hb => ?_⟩
  have hsame : s.wordAt b = s.wordAt a := wordAt_congr s (wordIndex_eq_of_add_size hb)
  exact ⟨hsame, hsame⟩

/-- Settles O20: each width reads the bytes from its address on, and is Misaligned where it is not aligned. -/
theorem dataReadsAreLittleEndianLanes : Obligations.DataReadsAreLittleEndianLanes := by
  intro s a
  refine ⟨?byteOfWord, memRead_byte s a, fun h => ?half, fun h => ?halfMisaligned, fun h => ?word,
    fun h => ?wordMisaligned⟩
  case byteOfWord => rw [← lane_eq, wordAt_lane]
  case half => exact memRead_half s a ((aligned_iff .half a).mpr h)
  case halfMisaligned => exact (memRead_eq_none s .half a).mpr ((aligned_eq_false_iff .half a).mpr h)
  case word =>
    have ha : aligned .word a = true := (aligned_iff .word a).mpr h
    rw [memRead_word s a ha, wordAt_bytes s a ha]
  case wordMisaligned => exact (memRead_eq_none s .word a).mpr ((aligned_eq_false_iff .word a).mpr h)

/-- Settles O21: the selected bytes, the others, and a misaligned write, each by its own rule. -/
theorem dataWritesAreMasked : Obligations.DataWritesAreMasked := by
  intro s w a v b hm
  refine ⟨fun h => ?misaligned, fun h => ⟨fun k hk hb => ?selected, byteAt_memWrite_other s w a b v hm⟩,
    memWrite_frame s w a v⟩
  case misaligned => exact memWrite_of_misaligned s w a v ((aligned_eq_false_iff w a).mpr h)
  case selected => exact byteAt_memWrite_selected s w a b v hm ((aligned_iff w a).mpr h) hk hb

/-- Settles O36: SW leaves `x[rs2]` in the word that its next `pc` selects, and the next step runs what it fetches
there. -/
theorem storedInstructionRunsNext : Obligations.StoredInstructionRunsNext := by
  intro rs1 rs2 imm12 s hm halign hindex
  have ha : aligned .word (s.baseOffset rs1 imm12) = true := (aligned_iff .word _).mpr halign
  have hi : wordIndex s.memSize (s.pc + 4#32) = wordIndex s.memSize (s.baseOffset rs1 imm12) := by
    rw [wordIndex_eq, wordIndex_eq]
    exact hindex.symm
  have hfetch : (s.store .word rs1 rs2 imm12).fetch (s.store .word rs1 rs2 imm12).pc = s.readReg rs2 := by
    rw [State.fetch, store_pc, store_wordAt, wordAt_memWrite_word _ _ _ _ ha hi hm]
  exact ⟨s.store .word rs1 rs2 imm12, rfl, hfetch, by rw [step, hfetch]⟩

/-- Settles O58: an entry is a word write of the data port, skipped when misaligned as that write is. -/
theorem loadProgramWritesWordsInOrder : Obligations.LoadProgramWritesWordsInOrder := by
  refine ⟨fun s es fs => ⟨rfl, loadProgram_append s es fs⟩, fun s a w h => ?_, fun s a w b hm h => ?_⟩
  · rw [loadProgram_singleton]
    exact memWrite_of_misaligned s .word a w ((aligned_eq_false_iff .word a).mpr h)
  · rw [loadProgram_singleton, ← wordIndex_eq, ← wordIndex_eq]
    exact ⟨fun hi => wordAt_memWrite_word s a b w ((aligned_iff .word a).mpr h) hi hm,
      wordAt_memWrite_other s .word a b w hm, memWrite_frame s .word a w⟩

end Sys2Proof.Machine
end

section
/-! Words by their fields and immediates: the fields' numbers, the immediates' values, a word packed again from its own
fields, and the fields a mask keeps (spec/30_encoding.md R58 to R66). -/

namespace Sys2Proof

/-! ### The fields by their numbers (R58) -/

section
variable (w : Word)

theorem fieldOpcode_toNat : (fieldOpcode w).toNat = w.toNat % 2 ^ 7 := BitVec.extractLsb'_toNat ..
theorem fieldRd_toNat : (fieldRd w).toNat = w.toNat / 2 ^ 7 % 2 ^ 5 := by
  rw [fieldRd, BitVec.extractLsb'_toNat, Nat.shiftRight_eq_div_pow]
theorem fieldFunct3_toNat : (fieldFunct3 w).toNat = w.toNat / 2 ^ 12 % 2 ^ 3 := by
  rw [fieldFunct3, BitVec.extractLsb'_toNat, Nat.shiftRight_eq_div_pow]
theorem fieldRs1_toNat : (fieldRs1 w).toNat = w.toNat / 2 ^ 15 % 2 ^ 5 := by
  rw [fieldRs1, BitVec.extractLsb'_toNat, Nat.shiftRight_eq_div_pow]
theorem fieldRs2_toNat : (fieldRs2 w).toNat = w.toNat / 2 ^ 20 % 2 ^ 5 := by
  rw [fieldRs2, BitVec.extractLsb'_toNat, Nat.shiftRight_eq_div_pow]
theorem fieldFunct7_toNat : (fieldFunct7 w).toNat = w.toNat / 2 ^ 25 := by
  rw [fieldFunct7, BitVec.extractLsb'_toNat, Nat.shiftRight_eq_div_pow]
  exact Nat.mod_eq_of_lt (Nat.div_lt_of_lt_mul w.isLt)
theorem funct7Bit5_fieldFunct7 : funct7Bit5 (fieldFunct7 w) = w.getLsbD 30 := by simp [funct7Bit5, fieldFunct7]

end

/-! ### Values of the immediates (R60 to R64) -/

theorem immI_toInt (imm : BitVec 12) : (immI imm).toInt = imm.toInt :=
  BitVec.toInt_signExtend_of_le (by decide)

theorem immB_toInt (off : BitVec 12) : (immB off).toInt = 2 * off.toInt := by
  have happend : (show BitVec (12 + 1) from off ++ 0#1).toInt = 2 * off.toInt :=
    BitVec.toInt_append.trans (by simp)
  exact (BitVec.toInt_signExtend_of_le (by decide)).trans happend

theorem immJ_toInt (off : BitVec 20) : (immJ off).toInt = 2 * off.toInt := by
  have happend : (show BitVec (20 + 1) from off ++ 0#1).toInt = 2 * off.toInt :=
    BitVec.toInt_append.trans (by simp)
  exact (BitVec.toInt_signExtend_of_le (by decide)).trans happend

theorem immU_toNat (imm : BitVec 20) : (immU imm).toNat = 4096 * imm.toNat := by
  have happend : (show BitVec (20 + 12) from imm ++ 0#12).toNat = 4096 * imm.toNat :=
    (BitVec.toNat_append ..).trans (by simp [Nat.shiftLeft_eq, mul_comm])
  exact happend

theorem immI_range (imm : BitVec 12) : -2048 ≤ (immI imm).toInt ∧ (immI imm).toInt ≤ 2047 := by
  have hlo := imm.le_toInt
  have hhi := imm.toInt_lt
  rw [immI_toInt]
  omega

theorem immB_range (off : BitVec 12) :
    -4096 ≤ (immB off).toInt ∧ (immB off).toInt ≤ 4094 ∧ (immB off).toInt % 2 = 0 := by
  have hlo := off.le_toInt
  have hhi := off.toInt_lt
  rw [immB_toInt]
  omega

theorem immJ_range (off : BitVec 20) :
    -1048576 ≤ (immJ off).toInt ∧ (immJ off).toInt ≤ 1048574 ∧ (immJ off).toInt % 2 = 0 := by
  have hlo := off.le_toInt
  have hhi := off.toInt_lt
  rw [immJ_toInt]
  omega

/-! ### Every value of a format's range is an immediate of the format (R66) -/

section
variable {imm : Word}

theorem toInt_ofInt_of_range {n : Nat} {v : Int} (hlo : -(2 ^ n) ≤ v) (hhi : v < 2 ^ n) :
    (BitVec.ofInt (n + 1) v).toInt = v := by
  rw [BitVec.toInt_ofInt]
  refine Int.bmod_eq_of_le ?_ ?_ <;> push_cast <;> rw [pow_succ] <;> omega

theorem exists_immI_eq (h : -2048 ≤ imm.toInt ∧ imm.toInt ≤ 2047) : ∃ b, immI b = imm :=
  ⟨BitVec.ofInt 12 imm.toInt, BitVec.eq_of_toInt_eq <| by
    rw [immI_toInt, toInt_ofInt_of_range (n := 11) (by omega) (by omega)]⟩

theorem exists_immB_eq (h : -4096 ≤ imm.toInt ∧ imm.toInt ≤ 4094 ∧ imm.toInt % 2 = 0) : ∃ off, immB off = imm :=
  ⟨BitVec.ofInt 12 (imm.toInt / 2), BitVec.eq_of_toInt_eq <| by
    rw [immB_toInt, toInt_ofInt_of_range (n := 11) (by omega) (by omega)]
    omega⟩

theorem exists_immJ_eq (h : -1048576 ≤ imm.toInt ∧ imm.toInt ≤ 1048574 ∧ imm.toInt % 2 = 0) :
    ∃ off, immJ off = imm :=
  ⟨BitVec.ofInt 20 (imm.toInt / 2), BitVec.eq_of_toInt_eq <| by
    rw [immJ_toInt, toInt_ofInt_of_range (n := 19) (by omega) (by omega)]
    omega⟩

theorem exists_immU_eq (h : imm.toNat % 4096 = 0) : ∃ b, immU b = imm := by
  refine ⟨imm.extractLsb' 12 20, BitVec.eq_of_toNat_eq ?_⟩
  rw [immU_toNat, BitVec.extractLsb'_toNat, Nat.shiftRight_eq_div_pow]
  have := imm.isLt
  omega

end

/-! ### Packing a word's own fields gives the word (R66) -/

section
variable {w : Word} {op : BitVec 7} {f3 : BitVec 3}

theorem packR_fields (ho : fieldOpcode w = op) (hf : fieldFunct3 w = f3) :
    packR op f3 (fieldFunct7 w) (fieldRd w) (fieldRs1 w) (fieldRs2 w) = w := by
  subst ho hf
  refine BitVec.eq_of_getLsbD_eq fun i h => ?_
  simp only [packR_getLsbD, fieldOpcode, fieldFunct3, fieldFunct7, fieldRd, fieldRs1, fieldRs2,
    BitVec.getLsbD_extractLsb']
  interval_cases i <;> simp

theorem packI_fields (ho : fieldOpcode w = op) (hf : fieldFunct3 w = f3) :
    packI op f3 (fieldRd w) (fieldRs1 w) (immI (bitsI w)) = w := by
  subst ho hf
  refine BitVec.eq_of_getLsbD_eq fun i h => ?_
  simp only [packI_getLsbD, fieldOpcode, fieldFunct3, fieldRd, fieldRs1, bitsI, immI, BitVec.getLsbD_extractLsb',
    BitVec.getLsbD_signExtend]
  interval_cases i <;> simp

theorem packS_fields (ho : fieldOpcode w = op) (hf : fieldFunct3 w = f3) :
    packS op f3 (fieldRs1 w) (fieldRs2 w) (immI (bitsS w)) = w := by
  subst ho hf
  refine BitVec.eq_of_getLsbD_eq fun i h => ?_
  simp only [packS_getLsbD, fieldOpcode, fieldFunct3, fieldRs1, fieldRs2, bitsS_getLsbD, immI,
    BitVec.getLsbD_extractLsb', BitVec.getLsbD_signExtend]
  interval_cases i <;> simp

theorem packB_fields (ho : fieldOpcode w = op) (hf : fieldFunct3 w = f3) :
    packB op f3 (fieldRs1 w) (fieldRs2 w) (immB (bitsB w)) = w := by
  subst ho hf
  refine BitVec.eq_of_getLsbD_eq fun i h => ?_
  simp only [packB_getLsbD, fieldOpcode, fieldFunct3, fieldRs1, fieldRs2, bitsB_getLsbD, immB_getLsbD,
    BitVec.getLsbD_extractLsb']
  interval_cases i <;> simp

theorem packU_fields (ho : fieldOpcode w = op) : packU op (fieldRd w) (immU (bitsU w)) = w := by
  subst ho
  refine BitVec.eq_of_getLsbD_eq fun i h => ?_
  simp only [packU_getLsbD, fieldOpcode, fieldRd, bitsU, immU_getLsbD, BitVec.getLsbD_extractLsb']
  interval_cases i <;> simp

theorem packJ_fields (ho : fieldOpcode w = op) : packJ op (fieldRd w) (immJ (bitsJ w)) = w := by
  subst ho
  refine BitVec.eq_of_getLsbD_eq fun i h => ?_
  simp only [packJ_getLsbD, fieldOpcode, fieldRd, bitsJ_getLsbD, immJ_getLsbD, BitVec.getLsbD_extractLsb']
  interval_cases i <;> simp

/-- The I immediate of a shift word is its funct7 above its shift amount (R65). -/
theorem shiftBits_fields (w : Word) : shiftBits (fieldFunct7 w) (fieldRs2 w) = bitsI w :=
  BitVec.extractLsb'_append_extractLsb'_eq_extractLsb' rfl

theorem packI_shift_fields (ho : fieldOpcode w = op) (hf : fieldFunct3 w = f3) :
    packI op f3 (fieldRd w) (fieldRs1 w) (immI (shiftBits (fieldFunct7 w) (fieldRs2 w))) = w := by
  rw [shiftBits_fields, packI_fields ho hf]

end

/-! ### Fields of a masked word, and of a word that a row of the opcode table matches -/

section
variable {w m mask : Word}

theorem extractLsb'_and_of_ones {start len : Nat} (hm : m.extractLsb' start len = BitVec.allOnes len) :
    (w &&& m).extractLsb' start len = w.extractLsb' start len := by
  rw [BitVec.extractLsb'_and, hm, BitVec.and_allOnes]

theorem fieldOpcode_of_row (h : w &&& mask = m) (hm : fieldOpcode mask = BitVec.allOnes 7) :
    fieldOpcode w = fieldOpcode m := by
  rw [← h]
  exact (extractLsb'_and_of_ones hm).symm

theorem fieldFunct3_of_row (h : w &&& mask = m) (hm : fieldFunct3 mask = BitVec.allOnes 3) :
    fieldFunct3 w = fieldFunct3 m := by
  rw [← h]
  exact (extractLsb'_and_of_ones hm).symm

theorem fieldFunct3_and_of_row (h : w &&& mask = m) : fieldFunct3 w &&& fieldFunct3 mask = fieldFunct3 m := by
  rw [← h]
  exact BitVec.extractLsb'_and.symm

theorem bit30_of_row (h : w &&& mask = m) (hm : mask.getLsbD 30 = true) :
    funct7Bit5 (fieldFunct7 w) = m.getLsbD 30 := by
  rw [funct7Bit5_fieldFunct7, ← h, BitVec.getLsbD_and, hm, Bool.and_true]

end

end Sys2Proof
end

section
/-! What the decoder answers, opcode by opcode and row by row (spec/30_encoding.md R67 to R69). -/

namespace Sys2Proof

section
variable {w : Word}

/-! ### What decoding answers, by opcode (R67) -/

theorem funct3_cases (f : BitVec 3) :
    f = 0b000#3 ∨ f = 0b001#3 ∨ f = 0b010#3 ∨ f = 0b011#3 ∨ f = 0b100#3 ∨ f = 0b101#3 ∨ f = 0b110#3 ∨ f = 0b111#3 := by
  revert f
  decide

theorem decode_of_jalr (h : fieldOpcode w = 0b1100111#7) :
    decode w = .jalr (fieldRd w) (fieldRs1 w) (fieldFunct3 w) (bitsI w) := by simp [decode, h]
theorem decode_of_branch (h : fieldOpcode w = 0b1100011#7) : decode w = decodeBranch w := by simp [decode, h]
theorem decode_of_load (h : fieldOpcode w = 0b0000011#7) : decode w = decodeLoad w := by simp [decode, h]
theorem decode_of_store (h : fieldOpcode w = 0b0100011#7) : decode w = decodeStore w := by simp [decode, h]
theorem decode_of_opImm (h : fieldOpcode w = 0b0010011#7) : decode w = decodeOpImm w := by simp [decode, h]
theorem decode_of_op (h : fieldOpcode w = 0b0110011#7) : decode w = decodeOp w := by simp [decode, h]
theorem decode_of_system (h : fieldOpcode w = 0b1110011#7) : decode w = decodeSystem w := by simp [decode, h]

theorem decode_of_unclaimed (h : claimedOpcode (fieldOpcode w) = false) : decode w = .unrecognized w := by
  unfold decode
  split <;> simp_all [claimedOpcode]

/-- SYSTEM's fields are well-formed unless the word is ECALL's or EBREAK's (R152, R153). -/
theorem system_wellFormed_iff (h : fieldOpcode w = 0b1110011#7) :
    (Instr.system (fieldRd w) (fieldRs1 w) (fieldFunct3 w) (bitsI w)).wellFormed = true ↔
      w ≠ 0x00000073 ∧ w ≠ 0x00100073 := by
  constructor
  · intro hwf
    constructor <;> (rintro rfl; exact absurd hwf (by decide))
  · rintro ⟨hecall, hebreak⟩
    have hpack := packI_fields h rfl
    by_contra hwf
    simp only [Instr.wellFormed, Bool.not_eq_true', Bool.not_eq_false, Bool.and_eq_true, Bool.or_eq_true,
      beq_iff_eq] at hwf
    obtain ⟨⟨⟨hrd, hrs1⟩, hf3⟩, himm⟩ := hwf
    rw [hrd, hrs1, hf3] at hpack
    obtain himm | himm := himm <;> rw [himm] at hpack
    · exact hecall hpack.symm
    · exact hebreak hpack.symm

/-! ### What an opcode's decoder answers encodes the word again and is well-formed (R66, R69) -/

theorem encode_wellFormed_decodeBranch (h : fieldOpcode w = 0b1100011#7) :
    encode (decodeBranch w) = w ∧ (decodeBranch w).wellFormed = true := by
  obtain hf | hf | hf | hf | hf | hf | hf | hf := funct3_cases (fieldFunct3 w) <;>
    simp [decodeBranch, hf, encode, packB_fields h hf, Instr.wellFormed]

theorem encode_wellFormed_decodeLoad (h : fieldOpcode w = 0b0000011#7) :
    encode (decodeLoad w) = w ∧ (decodeLoad w).wellFormed = true := by
  obtain hf | hf | hf | hf | hf | hf | hf | hf := funct3_cases (fieldFunct3 w) <;>
    simp [decodeLoad, hf, encode, packI_fields h hf, Instr.wellFormed]

theorem encode_wellFormed_decodeStore (h : fieldOpcode w = 0b0100011#7) :
    encode (decodeStore w) = w ∧ (decodeStore w).wellFormed = true := by
  obtain hf | hf | hf | hf | hf | hf | hf | hf := funct3_cases (fieldFunct3 w) <;>
    simp [decodeStore, hf, encode, packS_fields h hf, Instr.wellFormed]

theorem encode_wellFormed_decodeOpImm (h : fieldOpcode w = 0b0010011#7) :
    encode (decodeOpImm w) = w ∧ (decodeOpImm w).wellFormed = true := by
  cases h30 : funct7Bit5 (fieldFunct7 w) <;>
    obtain hf | hf | hf | hf | hf | hf | hf | hf := funct3_cases (fieldFunct3 w) <;>
    simp [decodeOpImm, hf, h30, encode, packI_fields h hf, packI_shift_fields h hf, Instr.wellFormed]

theorem encode_wellFormed_decodeOp (h : fieldOpcode w = 0b0110011#7) :
    encode (decodeOp w) = w ∧ (decodeOp w).wellFormed = true := by
  cases h30 : funct7Bit5 (fieldFunct7 w) <;>
    obtain hf | hf | hf | hf | hf | hf | hf | hf := funct3_cases (fieldFunct3 w) <;>
    simp [decodeOp, hf, h30, encode, packR_fields h hf, Instr.wellFormed]

theorem encode_wellFormed_decodeSystem (h : fieldOpcode w = 0b1110011#7) :
    encode (decodeSystem w) = w ∧ (decodeSystem w).wellFormed = true := by
  unfold decodeSystem
  split_ifs with hecall hebreak
  · subst hecall; decide
  · subst hebreak; decide
  · exact ⟨packI_fields h rfl, (system_wellFormed_iff h).mpr ⟨hecall, hebreak⟩⟩

end

/-- A row other than SYSTEM's and UNRECOGNIZED's fixes the opcode, the funct3 and the instr[30] by which `decode` chooses
(R67, R68), so every word it matches decodes to it. -/
theorem tableRow_decode_of_row {j : Instr} {w : Word} (hsystem : tableRow j ≠ (0x00000073#32, 0x0000007F#32))
    (hunrecognized : tableRow j ≠ (0x00000000#32, 0x00000000#32)) (h : w &&& (tableRow j).2 = (tableRow j).1) :
    tableRow (decode w) = tableRow j := by
  cases j <;> simp only [tableRow] at h ⊢
  case lui | auipc | jal | jalr | miscMem => rw [decode, fieldOpcode_of_row h rfl]; rfl
  case beq | bne | blt | bge | bltu | bgeu =>
    rw [decode_of_branch (fieldOpcode_of_row h rfl), decodeBranch, fieldFunct3_of_row h rfl]; rfl
  case lb | lh | lw | lbu | lhu | loadReserved011 | loadReserved110 | loadReserved111 =>
    rw [decode_of_load (fieldOpcode_of_row h rfl), decodeLoad, fieldFunct3_of_row h rfl]; rfl
  case sb | sh | sw | storeReserved011 =>
    rw [decode_of_store (fieldOpcode_of_row h rfl), decodeStore, fieldFunct3_of_row h rfl]; rfl
  case addi | slti | sltiu | xori | ori | andi | slli =>
    rw [decode_of_opImm (fieldOpcode_of_row h rfl), decodeOpImm, fieldFunct3_of_row h rfl]; rfl
  case srli | srai =>
    rw [decode_of_opImm (fieldOpcode_of_row h rfl), decodeOpImm, fieldFunct3_of_row h rfl, bit30_of_row h rfl]; rfl
  case sll | slt | sltu | xor | or | and =>
    rw [decode_of_op (fieldOpcode_of_row h rfl), decodeOp, fieldFunct3_of_row h rfl]; rfl
  case add | sub | srl | sra =>
    rw [decode_of_op (fieldOpcode_of_row h rfl), decodeOp, fieldFunct3_of_row h rfl, bit30_of_row h rfl]; rfl
  case branchReserved =>
    have hf : fieldFunct3 w &&& 0b110#3 = 0b010#3 := fieldFunct3_and_of_row h
    rw [decode_of_branch (fieldOpcode_of_row h rfl), decodeBranch]
    obtain hf3 | hf3 | hf3 | hf3 | hf3 | hf3 | hf3 | hf3 := funct3_cases (fieldFunct3 w) <;> simp_all [tableRow]
  case storeReserved1xx =>
    have hf : fieldFunct3 w &&& 0b100#3 = 0b100#3 := fieldFunct3_and_of_row h
    rw [decode_of_store (fieldOpcode_of_row h rfl), decodeStore]
    obtain hf3 | hf3 | hf3 | hf3 | hf3 | hf3 | hf3 | hf3 := funct3_cases (fieldFunct3 w) <;> simp_all [tableRow]
  case ecall | ebreak =>
    obtain rfl := BitVec.and_allOnes.symm.trans h
    rfl
  case system => exact absurd rfl hsystem
  case unrecognized => exact absurd rfl hunrecognized

end Sys2Proof

namespace Sys2Proof.Laws

/-- Every instruction's word is one that its row matches: the rows' lemmas together. -/
theorem encodesItsRow : ∀ i : Instr, EncodesItsRow.Statement i
  | .lui rd imm20 => EncodesItsRow.lui rd imm20
  | .auipc rd imm20 => EncodesItsRow.auipc rd imm20
  | .jal rd off20 => EncodesItsRow.jal rd off20
  | .jalr rd rs1 funct3 imm12 => EncodesItsRow.jalr rd rs1 funct3 imm12
  | .beq rs1 rs2 off12 => EncodesItsRow.beq rs1 rs2 off12
  | .bne rs1 rs2 off12 => EncodesItsRow.bne rs1 rs2 off12
  | .blt rs1 rs2 off12 => EncodesItsRow.blt rs1 rs2 off12
  | .bge rs1 rs2 off12 => EncodesItsRow.bge rs1 rs2 off12
  | .bltu rs1 rs2 off12 => EncodesItsRow.bltu rs1 rs2 off12
  | .bgeu rs1 rs2 off12 => EncodesItsRow.bgeu rs1 rs2 off12
  | .branchReserved funct3 rs1 rs2 off12 => EncodesItsRow.branchReserved funct3 rs1 rs2 off12
  | .lb rd rs1 imm12 => EncodesItsRow.lb rd rs1 imm12
  | .lh rd rs1 imm12 => EncodesItsRow.lh rd rs1 imm12
  | .lw rd rs1 imm12 => EncodesItsRow.lw rd rs1 imm12
  | .lbu rd rs1 imm12 => EncodesItsRow.lbu rd rs1 imm12
  | .lhu rd rs1 imm12 => EncodesItsRow.lhu rd rs1 imm12
  | .loadReserved011 rd rs1 imm12 => EncodesItsRow.loadReserved011 rd rs1 imm12
  | .loadReserved110 rd rs1 imm12 => EncodesItsRow.loadReserved110 rd rs1 imm12
  | .loadReserved111 rd rs1 imm12 => EncodesItsRow.loadReserved111 rd rs1 imm12
  | .sb rs1 rs2 imm12 => EncodesItsRow.sb rs1 rs2 imm12
  | .sh rs1 rs2 imm12 => EncodesItsRow.sh rs1 rs2 imm12
  | .sw rs1 rs2 imm12 => EncodesItsRow.sw rs1 rs2 imm12
  | .storeReserved011 rs1 rs2 imm12 => EncodesItsRow.storeReserved011 rs1 rs2 imm12
  | .storeReserved1xx funct3 rs1 rs2 imm12 => EncodesItsRow.storeReserved1xx funct3 rs1 rs2 imm12
  | .addi rd rs1 imm12 => EncodesItsRow.addi rd rs1 imm12
  | .slti rd rs1 imm12 => EncodesItsRow.slti rd rs1 imm12
  | .sltiu rd rs1 imm12 => EncodesItsRow.sltiu rd rs1 imm12
  | .xori rd rs1 imm12 => EncodesItsRow.xori rd rs1 imm12
  | .ori rd rs1 imm12 => EncodesItsRow.ori rd rs1 imm12
  | .andi rd rs1 imm12 => EncodesItsRow.andi rd rs1 imm12
  | .slli rd rs1 funct7 shamt => EncodesItsRow.slli rd rs1 funct7 shamt
  | .srli rd rs1 funct7 shamt => EncodesItsRow.srli rd rs1 funct7 shamt
  | .srai rd rs1 funct7 shamt => EncodesItsRow.srai rd rs1 funct7 shamt
  | .add rd rs1 rs2 funct7 => EncodesItsRow.add rd rs1 rs2 funct7
  | .sub rd rs1 rs2 funct7 => EncodesItsRow.sub rd rs1 rs2 funct7
  | .sll rd rs1 rs2 funct7 => EncodesItsRow.sll rd rs1 rs2 funct7
  | .slt rd rs1 rs2 funct7 => EncodesItsRow.slt rd rs1 rs2 funct7
  | .sltu rd rs1 rs2 funct7 => EncodesItsRow.sltu rd rs1 rs2 funct7
  | .xor rd rs1 rs2 funct7 => EncodesItsRow.xor rd rs1 rs2 funct7
  | .srl rd rs1 rs2 funct7 => EncodesItsRow.srl rd rs1 rs2 funct7
  | .sra rd rs1 rs2 funct7 => EncodesItsRow.sra rd rs1 rs2 funct7
  | .or rd rs1 rs2 funct7 => EncodesItsRow.or rd rs1 rs2 funct7
  | .and rd rs1 rs2 funct7 => EncodesItsRow.and rd rs1 rs2 funct7
  | .ecall => EncodesItsRow.ecall
  | .ebreak => EncodesItsRow.ebreak
  | .system rd rs1 funct3 imm12 => EncodesItsRow.system rd rs1 funct3 imm12
  | .miscMem rd rs1 funct3 imm12 => EncodesItsRow.miscMem rd rs1 funct3 imm12
  | .unrecognized word => EncodesItsRow.unrecognized word

end Sys2Proof.Laws
end

section
/-! Encoding: fields and immediates, the packed formats, decoding and encoding as inverses, and the opcode table
(spec/30_encoding.md R58 to R69). -/

namespace Sys2Proof

/-- Settles O1: the fields are bit ranges of the word's number, and each immediate has its bits and its range from its
format. -/
theorem fieldsAndImmediatesOfEveryWord : Obligations.FieldsAndImmediatesOfEveryWord := by
  intro w
  refine ⟨?fields, fun i hi => ?immI, fun i hi => ?immS, fun i hi => ?immB, fun i hi => ?immU, fun i hi => ?immJ,
    immI_range _, immI_range _, immB_range _, immJ_range _⟩
  case fields =>
    exact ⟨fieldOpcode_toNat w, fieldRd_toNat w, fieldFunct3_toNat w, fieldRs1_toNat w, fieldRs2_toNat w,
      fieldFunct7_toNat w, funct7Bit5_fieldFunct7 w⟩
  case immI =>
    simp only [decoderOut, immI, bitsI, BitVec.getLsbD_signExtend, BitVec.getLsbD_extractLsb',
      BitVec.msb_eq_getLsbD_last]
    interval_cases i <;> simp
  case immS =>
    simp only [decoderOut, immI, bitsS_getLsbD, BitVec.getLsbD_signExtend, BitVec.msb_eq_getLsbD_last]
    interval_cases i <;> simp
  case immB =>
    simp only [decoderOut, immB_getLsbD, bitsB_getLsbD, BitVec.msb_eq_getLsbD_last]
    interval_cases i <;> simp
  case immU =>
    simp only [decoderOut, immU_getLsbD, bitsU, BitVec.getLsbD_extractLsb']
    interval_cases i <;> simp
  case immJ =>
    simp only [decoderOut, immJ_getLsbD, bitsJ_getLsbD, BitVec.msb_eq_getLsbD_last]
    interval_cases i <;> simp

/-- Settles O2: each field reads back what was packed, and a value in a format's range is an immediate of the format. -/
theorem packedFormatsRoundTrip : Obligations.PackedFormatsRoundTrip := by
  intro op f3 f7 rd rs1 rs2 imm
  refine ⟨by simp [decoderOut], fun h => ?I, fun h => ?S, fun h => ?B, fun h => ?U, fun h => ?J⟩
  case I => obtain ⟨b, rfl⟩ := exists_immI_eq h; simp [decoderOut]
  case S => obtain ⟨b, rfl⟩ := exists_immI_eq h; simp [decoderOut]
  case B => obtain ⟨off, rfl⟩ := exists_immB_eq h; simp [decoderOut]
  case U => obtain ⟨b, rfl⟩ := exists_immU_eq h; simp [decoderOut]
  case J => obtain ⟨off, rfl⟩ := exists_immJ_eq h; simp [decoderOut]

/-- Settles O3, by the families of the decode table: the fields of a packed word select the instruction's row and give
back its operands. -/
theorem decodeOfEncodeIsTheInstruction : Obligations.DecodeOfEncodeIsTheInstruction := by
  intro i hwf
  cases i with
  | lui | auipc | jal | jalr | miscMem => simp [encode, decode]
  | beq | bne | blt | bge | bltu | bgeu => simp [encode, decode_of_branch, decodeBranch]
  | branchReserved f3 =>
    have hf : f3 = 2#3 ∨ f3 = 3#3 := by simpa [Instr.wellFormed] using hwf
    obtain rfl | rfl := hf <;> simp [encode, decode_of_branch, decodeBranch]
  | lb | lh | lw | lbu | lhu | loadReserved011 | loadReserved110 | loadReserved111 =>
    simp [encode, decode_of_load, decodeLoad]
  | sb | sh | sw | storeReserved011 => simp [encode, decode_of_store, decodeStore]
  | storeReserved1xx f3 =>
    obtain rfl | rfl | rfl | rfl | rfl | rfl | rfl | rfl := funct3_cases f3 <;>
      simp_all [encode, decode_of_store, decodeStore, Instr.wellFormed]
  | addi | slti | sltiu | xori | ori | andi | slli => simp [encode, decode_of_opImm, decodeOpImm]
  | srli | srai =>
    simp_all [Instr.wellFormed, encode, decode_of_opImm, decodeOpImm]
  | sll | slt | sltu | xor | or | and => simp [encode, decode_of_op, decodeOp]
  | add | sub | srl | sra =>
    simp_all [Instr.wellFormed, encode, decode_of_op, decodeOp]
  | ecall | ebreak => decide
  | system rd rs1 f3 imm =>
    have ho : fieldOpcode (encode (.system rd rs1 f3 imm)) = 0b1110011#7 := fieldOpcode_packI ..
    obtain ⟨hecall, hebreak⟩ : encode (.system rd rs1 f3 imm) ≠ 0x00000073 ∧
        encode (.system rd rs1 f3 imm) ≠ 0x00100073 :=
      (system_wellFormed_iff ho).mp (by simpa [encode] using hwf)
    rw [decode_of_system ho, decodeSystem, if_neg hecall, if_neg hebreak]
    simp [encode]
  | unrecognized w =>
    have hunclaimed : claimedOpcode (fieldOpcode w) = false := (Bool.not_eq_true' _).mp hwf
    exact decode_of_unclaimed hunclaimed

/-- Settles O4: each opcode's decoder keeps every bit of the word, and answers a well-formed instruction. -/
theorem encodeOfDecodeIsTheWord : Obligations.EncodeOfDecodeIsTheWord := by
  intro w
  unfold decode
  split
  case h_1 h => exact ⟨packU_fields h, rfl⟩
  case h_2 h => exact ⟨packU_fields h, rfl⟩
  case h_3 h => exact ⟨packJ_fields h, rfl⟩
  case h_4 h => exact ⟨packI_fields h rfl, rfl⟩
  case h_5 h => exact encode_wellFormed_decodeBranch h
  case h_6 h => exact encode_wellFormed_decodeLoad h
  case h_7 h => exact encode_wellFormed_decodeStore h
  case h_8 h => exact encode_wellFormed_decodeOpImm h
  case h_9 h => exact encode_wellFormed_decodeOp h
  case h_10 h => exact encode_wellFormed_decodeSystem h
  case h_11 h => exact ⟨packI_fields h rfl, rfl⟩
  case h_12 => exact ⟨rfl, by simp_all [Instr.wellFormed, claimedOpcode, fieldOpcode]⟩

/-- Settles O5: the word is that of its well-formed instruction, which its row matches; a row fixes the fields by which
`decode` chooses. -/
theorem tableRowsDecodeUnambiguously : Obligations.TableRowsDecodeUnambiguously := by
  refine ⟨fun w => ?_, fun j w hsystem hunrecognized h => tableRow_decode_of_row hsystem hunrecognized h⟩
  obtain ⟨hencode, hwf⟩ := encodeOfDecodeIsTheWord w
  have hrow := Laws.encodesItsRow (decode w) hwf
  rwa [hencode] at hrow

/-- Settles O27, by the eight values of funct3. -/
theorem branchLoadStoreWordsDecodeByFunct3 : Obligations.BranchLoadStoreWordsDecodeByFunct3 := by
  refine ⟨fun w h => ⟨bitsB w, rfl, ?_⟩, fun w h => ?_, fun w h => ⟨bitsS w, rfl, ?_⟩⟩
  · rw [decode_of_branch h, decodeBranch]
    obtain hf | hf | hf | hf | hf | hf | hf | hf := funct3_cases (fieldFunct3 w) <;> simp [hf]
  · rw [decode_of_load h, decodeLoad]
    obtain hf | hf | hf | hf | hf | hf | hf | hf := funct3_cases (fieldFunct3 w) <;> simp [hf, bitsI]
  · rw [decode_of_store h, decodeStore]
    obtain hf | hf | hf | hf | hf | hf | hf | hf := funct3_cases (fieldFunct3 w) <;> simp [hf]

end Sys2Proof
end

section
/-! The bits that neither the decoder nor the run of an instruction examines (spec/30_encoding.md R70). -/

namespace Sys2Proof.Machine

/-! ### Of a shift's immediate the ALU uses the shift amount alone (R65, R83) -/

theorem shiftAmount_immI_shiftBits (f7 : BitVec 7) (shamt : BitVec 5) :
    shiftAmount (immI (shiftBits f7 shamt)) = shamt.toNat := by
  have hlow : (immI (shiftBits f7 shamt)).extractLsb' 0 5 = shamt := by
    refine BitVec.eq_of_getLsbD_eq fun i hi => ?_
    have hbit : (shiftBits f7 shamt).getLsbD i = shamt.getLsbD i := by
      show BitVec.getLsbD (w := 7 + 5) (f7 ++ shamt) i = _
      rw [BitVec.getLsbD_append, if_pos hi]
    rw [BitVec.getLsbD_extractLsb', immI, BitVec.getLsbD_signExtend, Nat.zero_add, hbit]
    simp [hi, show i < 12 by omega, show i < 32 by omega]
  rw [shiftAmount, hlow]

theorem aluToReg_shift_congr (s : State) {op : AluOp} (hop : op = .sll ∨ op = .srl ∨ op = .sra) (rd : RegIdx)
    (a : Word) {b b' : Word} (h : shiftAmount b = shiftAmount b') : s.aluToReg op rd a b = s.aluToReg op rd a b' := by
  obtain rfl | rfl | rfl := hop <;> simp [State.aluToReg, aluFlags, aluResult, carryOf, overflowOf, h]

section
variable (s : State) (rd rs1 : RegIdx) (f7 f7' : BitVec 7) (shamt : BitVec 5)

theorem exec_slli_funct7 : exec (.slli rd rs1 f7 shamt) s = exec (.slli rd rs1 f7' shamt) s :=
  congrArg _ (aluToReg_shift_congr s (.inl rfl) rd _ (by simp only [shiftAmount_immI_shiftBits]))

theorem exec_srli_funct7 : exec (.srli rd rs1 f7 shamt) s = exec (.srli rd rs1 f7' shamt) s :=
  congrArg _ (aluToReg_shift_congr s (.inr (.inl rfl)) rd _ (by simp only [shiftAmount_immI_shiftBits]))

theorem exec_srai_funct7 : exec (.srai rd rs1 f7 shamt) s = exec (.srai rd rs1 f7' shamt) s :=
  congrArg _ (aluToReg_shift_congr s (.inr (.inr rfl)) rd _ (by simp only [shiftAmount_immI_shiftBits]))

end

/-- Two words that differ at most in funct7. -/
structure SameButFunct7 (v w : Word) : Prop where
  opcode : fieldOpcode v = fieldOpcode w
  rd : fieldRd v = fieldRd w
  funct3 : fieldFunct3 v = fieldFunct3 w
  rs1 : fieldRs1 v = fieldRs1 w
  rs2 : fieldRs2 v = fieldRs2 w

/-- A mask that keeps bits 24:0 keeps every field but funct7. -/
theorem sameButFunct7_and (w : Word) {m : Word} (hopcode : fieldOpcode m = BitVec.allOnes 7)
    (hrd : fieldRd m = BitVec.allOnes 5) (hfunct3 : fieldFunct3 m = BitVec.allOnes 3)
    (hrs1 : fieldRs1 m = BitVec.allOnes 5) (hrs2 : fieldRs2 m = BitVec.allOnes 5) : SameButFunct7 (w &&& m) w where
  opcode := extractLsb'_and_of_ones hopcode
  rd := extractLsb'_and_of_ones hrd
  funct3 := extractLsb'_and_of_ones hfunct3
  rs1 := extractLsb'_and_of_ones hrs1
  rs2 := extractLsb'_and_of_ones hrs2

theorem funct7Bit5_and (w : Word) {m : Word} (hm : m.getLsbD 30 = true) :
    funct7Bit5 (fieldFunct7 (w &&& m)) = funct7Bit5 (fieldFunct7 w) := by
  simp [funct7Bit5_fieldFunct7, hm]

section
variable {v w : Word} (s : State)

/-- Of funct7 an OP word's run depends on bit 5 alone, and on that only where funct3 is 000 or 101 (R93, R140). -/
theorem exec_decode_op_congr (ho : fieldOpcode w = 0b0110011#7) (h : SameButFunct7 v w)
    (h30 : fieldFunct3 w = 0b000#3 ∨ fieldFunct3 w = 0b101#3 →
      funct7Bit5 (fieldFunct7 v) = funct7Bit5 (fieldFunct7 w)) :
    exec (decode w) s = exec (decode v) s := by
  rw [decode_of_op ho, decode_of_op (h.opcode.trans ho)]
  unfold decodeOp
  rw [h.rd, h.funct3, h.rs1, h.rs2]
  split
  case h_1 hf => rw [h30 (.inl hf)]; split <;> rfl
  case h_6 hf => rw [h30 (.inr hf)]; split <;> rfl
  all_goals rfl

theorem exec_decode_slli_congr (ho : fieldOpcode w = 0b0010011#7) (hf : fieldFunct3 w = 0b001#3)
    (h : SameButFunct7 v w) : exec (decode w) s = exec (decode v) s := by
  rw [decode_of_opImm ho, decode_of_opImm (h.opcode.trans ho)]
  simp only [decodeOpImm, h.rd, h.funct3, h.rs1, h.rs2, hf]
  exact exec_slli_funct7 ..

theorem exec_decode_shiftRight_congr (ho : fieldOpcode w = 0b0010011#7) (hf : fieldFunct3 w = 0b101#3)
    (h : SameButFunct7 v w) (h30 : funct7Bit5 (fieldFunct7 v) = funct7Bit5 (fieldFunct7 w)) :
    exec (decode w) s = exec (decode v) s := by
  rw [decode_of_opImm ho, decode_of_opImm (h.opcode.trans ho)]
  simp only [decodeOpImm, h.rd, h.funct3, h.rs1, h.rs2, hf, h30]
  split
  · exact exec_srai_funct7 ..
  · exact exec_srli_funct7 ..

theorem exec_decode_jalr_congr (ho : fieldOpcode w = 0b1100111#7) (hov : fieldOpcode v = fieldOpcode w)
    (hrd : fieldRd v = fieldRd w) (hrs1 : fieldRs1 v = fieldRs1 w) (himm : bitsI v = bitsI w) :
    exec (decode w) s = exec (decode v) s := by
  rw [decode_of_jalr ho, decode_of_jalr (hov.trans ho), hrd, hrs1, himm]
  rfl

end

/-- Settles O44: the masks keep every field that decoding and the run depend on. -/
theorem unexaminedBitsChangeNothing : Obligations.UnexaminedBitsChangeNothing := by
  intro w s
  have h41 : SameButFunct7 (w &&& 0x41FFFFFF#32) w := sameButFunct7_and w rfl rfl rfl rfl rfl
  have h01 : SameButFunct7 (w &&& 0x01FFFFFF#32) w := sameButFunct7_and w rfl rfl rfl rfl rfl
  refine ⟨fun ho => ?op, fun ho h0 h5 => ?opBit30, fun ho hf => ?slli, fun ho hf => ?shiftRight, fun ho => ?jalr⟩
  case op => exact exec_decode_op_congr s ho h41 fun _ => funct7Bit5_and w rfl
  case opBit30 => exact exec_decode_op_congr s ho h01 fun h => (h.elim h0 h5).elim
  case slli => exact exec_decode_slli_congr s ho hf h01
  case shiftRight => exact exec_decode_shiftRight_congr s ho hf h41 (funct7Bit5_and w rfl)
  case jalr =>
    exact exec_decode_jalr_congr s ho (extractLsb'_and_of_ones rfl) (extractLsb'_and_of_ones rfl)
      (extractLsb'_and_of_ones rfl) (extractLsb'_and_of_ones rfl)

end Sys2Proof.Machine
end

section
/-! The ALU by arithmetic (spec/40_alu.md R76 to R90): the flags of each operation, the amount of a shift, a
comparison's word; and the words by which the control unit selects each operation (spec/41_control_and_cycle.md R92 to
R94). -/

namespace Sys2Proof.Machine

/-! ### Flags (R76 to R78) -/

section
variable (a b : Word)

/-- Z and N as the statements give them, by the result's value (R76). -/
theorem aluFlags_eq (op : AluOp) :
    aluFlags op a b = ⟨decide (aluResult op a b = 0#32), carryOf op a b, decide ((aluResult op a b).toInt < 0),
      overflowOf op a b⟩ := by
  rw [aluFlags, beq_eq_decide, BitVec.msb_eq_toInt]

/-- Only Add and Sub set C or V (D8). -/
theorem aluFlags_eq_resultFlags {op : AluOp} (hadd : op ≠ .add) (hsub : op ≠ .sub) :
    aluFlags op a b = resultFlags (aluResult op a b) := by
  rw [aluFlags_eq]
  cases op with
  | add | sub => contradiction
  | _ => rfl

theorem addOverflow_iff : addOverflow a b = true ↔ a.msb = b.msb ∧ (a + b).msb ≠ a.msb := by
  simp [addOverflow]

theorem subOverflow_iff : subOverflow a b = true ↔ a.msb ≠ b.msb ∧ (a - b).msb ≠ a.msb := by
  simp [subOverflow]

/-- Add's sign rule is that the signed sum does not fit in 32 bits. -/
theorem addOverflow_eq_decide :
    addOverflow a b = decide (a.toInt + b.toInt < -2 ^ 31 ∨ 2 ^ 31 ≤ a.toInt + b.toInt) :=
  calc addOverflow a b
      = a.saddOverflow b := (BitVec.saddOverflow_eq a b).symm
    _ = _ := by rw [BitVec.saddOverflow, Bool.or_comm, ← Bool.decide_or]

/-- Sub's sign rule is that the signed difference does not fit in 32 bits. -/
theorem subOverflow_eq_decide :
    subOverflow a b = decide (a.toInt - b.toInt < -2 ^ 31 ∨ 2 ^ 31 ≤ a.toInt - b.toInt) :=
  calc subOverflow a b
      = a.ssubOverflow b := by
        rw [BitVec.ssubOverflow_eq, subOverflow]
        cases a.msb <;> cases b.msb <;> simp
    _ = _ := by rw [BitVec.ssubOverflow, Bool.or_comm, ← Bool.decide_or]

theorem aluFlags_add : aluFlags .add a b = addFlags a b := by
  rw [aluFlags_eq, overflowOf, addOverflow_eq_decide]
  rfl

theorem aluFlags_sub : aluFlags .sub a b = subFlags a b := by
  have hz : (a - b = 0#32) = (a = b) := propext sub_eq_zero
  rw [aluFlags_eq, overflowOf, subOverflow_eq_decide]
  simp only [aluResult, hz]
  rfl

/-! ### Shifts and comparisons (R83 to R87) -/

theorem shiftAmount_eq : shiftAmount b = b.toNat % 32 :=
  BitVec.extractLsb'_toNat ..

theorem resultFlags_boolWord (p : Bool) : resultFlags (boolWord p) = ⟨!p, false, false, false⟩ := by
  cases p <;> decide

theorem boolWord_decide (p : Prop) [Decidable p] : boolWord (decide p) = if p then 1#32 else 0#32 := by
  simp [boolWord]

/-- An operation that answers whether `p` holds sets Z exactly when it does not, and no other flag (R86, R87, D8). -/
theorem aluFlags_of_boolWord {op : AluOp} (hadd : op ≠ .add) (hsub : op ≠ .sub) {p q : Prop} [Decidable p]
    [Decidable q] (hresult : aluResult op a b = boolWord (decide p)) (hnot : ¬p ↔ q) :
    aluFlags op a b = ⟨decide q, false, false, false⟩ := by
  rw [aluFlags_eq_resultFlags a b hadd hsub, hresult, resultFlags_boolWord, ← decide_not, decide_eq_decide.mpr hnot]

end

/-! ### The operation the control unit selects (R92 to R94) -/

theorem aluOpOf_eq_add_iff (isOp f5 : Bool) (f3 : BitVec 3) :
    aluOpOf isOp f5 f3 = .add ↔ f3 = 0b000#3 ∧ (isOp && f5) = false := by
  revert isOp f5 f3
  decide

theorem aluOpOf_eq_sub_iff (isOp f5 : Bool) (f3 : BitVec 3) :
    aluOpOf isOp f5 f3 = .sub ↔ f3 = 0b000#3 ∧ (isOp && f5) = true := by
  revert isOp f5 f3
  decide

/-- No funct3 maps to Not or to a pass-through (R93). -/
theorem aluOpOf_ne (isOp f5 : Bool) (f3 : BitVec 3) :
    aluOpOf isOp f5 f3 ≠ .not ∧ aluOpOf isOp f5 f3 ≠ .passA ∧ aluOpOf isOp f5 f3 ≠ .passB := by
  revert isOp f5 f3
  decide

/-- The ten opcodes the decode table lists (R92). -/
def listedOpcodes : List (BitVec 7) :=
  [0b0110111#7, 0b0010111#7, 0b1101111#7, 0b1100111#7, 0b1100011#7, 0b0000011#7, 0b0100011#7, 0b0010011#7, 0b0110011#7,
    0b1110011#7]

/-- The column alu_op of the decode table: the operation a word `w` selects, by its opcode (R92 to R94). -/
inductive AluOpRow (w : Word) : BitVec 7 → AluOp → Prop where
  | lui : AluOpRow w 0b0110111#7 .passB
  | auipc : AluOpRow w 0b0010111#7 .add
  | jal : AluOpRow w 0b1101111#7 .add
  | jalr : AluOpRow w 0b1100111#7 .add
  | branch : AluOpRow w 0b1100011#7 .sub
  | load : AluOpRow w 0b0000011#7 .add
  | store : AluOpRow w 0b0100011#7 .add
  | opImm : AluOpRow w 0b0010011#7 (aluOpOf false (w.getLsbD 30) (fieldFunct3 w))
  | op : AluOpRow w 0b0110011#7 (aluOpOf true (w.getLsbD 30) (fieldFunct3 w))
  | system : AluOpRow w 0b1110011#7 .passA
  | unlisted {opcode} (h : opcode ∉ listedOpcodes) : AluOpRow w opcode .passA

theorem controlSignals_aluOpRow (w : Word) : AluOpRow w (fieldOpcode w) (controlSignals w).aluOp := by
  rw [controlSignals, funct7Bit5_fieldFunct7]
  split
  case h_11 =>
    refine .unlisted ?_
    simp_all [listedOpcodes]
  all_goals simp only [*]; constructor

namespace AluOpRow
variable {w : Word} {opcode : BitVec 7} {selected : AluOp}

theorem eq_add_iff (h : AluOpRow w opcode selected) :
    selected = .add ↔
      opcode = 0b0110011#7 ∧ fieldFunct3 w = 0b000#3 ∧ w.getLsbD 30 = false ∨
      opcode = 0b0010011#7 ∧ fieldFunct3 w = 0b000#3 ∨
      opcode = 0b0010111#7 ∨ opcode = 0b1101111#7 ∨ opcode = 0b1100111#7 ∨
      opcode = 0b0000011#7 ∨ opcode = 0b0100011#7 := by
  cases h with
  | opImm | op => simp [aluOpOf_eq_add_iff]
  | unlisted h => simp_all [listedOpcodes]
  | _ => simp

theorem eq_sub_iff (h : AluOpRow w opcode selected) :
    selected = .sub ↔
      opcode = 0b0110011#7 ∧ fieldFunct3 w = 0b000#3 ∧ w.getLsbD 30 = true ∨ opcode = 0b1100011#7 := by
  cases h with
  | opImm | op => simp [aluOpOf_eq_sub_iff]
  | unlisted h => simp_all [listedOpcodes]
  | _ => simp

theorem ne_not (h : AluOpRow w opcode selected) : selected ≠ .not := by
  cases h with
  | opImm | op => simp [aluOpOf_ne]
  | _ => simp

theorem eq_passB_iff (h : AluOpRow w opcode selected) : selected = .passB ↔ opcode = 0b0110111#7 := by
  cases h with
  | opImm | op => simp [aluOpOf_ne]
  | unlisted h => simp_all [listedOpcodes]
  | _ => simp

theorem eq_passA_iff (h : AluOpRow w opcode selected) :
    selected = .passA ↔ opcode = 0b1110011#7 ∨ opcode ∉ listedOpcodes := by
  cases h with
  | opImm | op => simp [aluOpOf_ne, listedOpcodes]
  | unlisted h => simp [h]
  | _ => simp [listedOpcodes]

end AluOpRow

/-! ### The obligations of the family -/

/-- Settles O7: the sign rule of V is that the signed sum does not fit, and each row of the decode table says whether it
selects Add. -/
theorem aluAddResultFlagsAndSelection : Obligations.AluAddResultFlagsAndSelection :=
  ⟨fun a b => ⟨rfl, aluFlags_add a b, addOverflow_iff a b⟩, fun w => (controlSignals_aluOpRow w).eq_add_iff⟩

/-- Settles O8: the sign rule of V is that the signed difference does not fit, and each row of the decode table says
whether it selects Sub. -/
theorem aluSubResultFlagsAndSelection : Obligations.AluSubResultFlagsAndSelection :=
  ⟨fun a b => ⟨rfl, aluFlags_sub a b, subOverflow_iff a b⟩, fun w => (controlSignals_aluOpRow w).eq_sub_iff⟩

/-- Settles O9: bit by bit, with the flags of the result, and no row of the decode table selects Not. -/
theorem aluBitwiseResultsAndFlags : Obligations.AluBitwiseResultsAndFlags := by
  refine ⟨fun a b i hi => ⟨BitVec.getLsbD_and, BitVec.getLsbD_or, BitVec.getLsbD_xor, ?_⟩,
    fun a b => ⟨?_, ?_, ?_, ?_⟩, fun w => (controlSignals_aluOpRow w).ne_not⟩
  · simp [aluResult, hi]
  all_goals exact aluFlags_eq_resultFlags a b (by decide) (by decide)

/-- Settles O10: the amount is `b` modulo 32, and a shift by it is arithmetic with a power of two. -/
theorem aluShiftsAreModulo32 : Obligations.AluShiftsAreModulo32 := by
  intro a b
  rw [← shiftAmount_eq]
  refine ⟨?sll, ?srl, ?sra, ?_, ?_, ?_⟩
  case sll => rw [aluResult, BitVec.toNat_shiftLeft, Nat.shiftLeft_eq]
  case srl => rw [aluResult, BitVec.toNat_ushiftRight, Nat.shiftRight_eq_div_pow]
  case sra => rw [aluResult, BitVec.toInt_sshiftRight, Int.shiftRight_eq_div_pow, Nat.cast_pow, Nat.cast_ofNat]
  all_goals exact aluFlags_eq_resultFlags a b (by decide) (by decide)

/-- Settles O12: the flags are those of the operand passed, and each row of the decode table says which pass-through it
selects. -/
theorem aluPassThroughs : Obligations.AluPassThroughs :=
  ⟨fun a b => ⟨rfl, rfl, aluFlags_eq_resultFlags a b (by decide) (by decide),
      aluFlags_eq_resultFlags a b (by decide) (by decide)⟩,
    fun w => (controlSignals_aluOpRow w).eq_passB_iff, fun w => (controlSignals_aluOpRow w).eq_passA_iff⟩

/-- Settles O11: each result is the word of a comparison, whose flags are Z alone. -/
theorem aluComparisonsGiveOneOrZero : Obligations.AluComparisonsGiveOneOrZero := fun a b =>
  ⟨boolWord_decide _, boolWord_decide _,
    aluFlags_of_boolWord a b (by decide) (by decide) rfl Int.not_lt,
    aluFlags_of_boolWord a b (by decide) (by decide) rfl Nat.not_lt⟩

end Sys2Proof.Machine
end

section
/-! The decode table row by row: the control signals of a word beside the instruction it decodes to
(spec/41_control_and_cycle.md R91 to R94), and what each family's instructions run. -/

namespace Sys2Proof.Machine

/-! ### The rows of the decode table (R92) -/

/-- The signals of an instruction that writes its ALU result: LUI, AUIPC, OP-IMM and OP. -/
def aluSignals (op : AluOp) (aluSrc : Bool) : ControlSignals := ⟨op, aluSrc, false, false, false, true, false, false⟩

/-- The signals of JAL and JALR. -/
def jumpSignals (aluSrc : Bool) : ControlSignals := ⟨.add, aluSrc, false, false, false, true, false, true⟩

def branchSignals : ControlSignals := ⟨.sub, false, false, false, false, false, true, false⟩

def loadSignals : ControlSignals := ⟨.add, true, true, false, true, true, false, false⟩

def storeSignals : ControlSignals := ⟨.add, true, false, true, false, false, false, false⟩

/-- The control signals of a word `w` and the instruction it decodes to, by its opcode (R67, R92, R94). -/
inductive DecodeRow (w : Word) : ControlSignals → Instr → Prop where
  | lui (h : fieldOpcode w = 0b0110111#7) : DecodeRow w (aluSignals .passB true) (.lui (fieldRd w) (bitsU w))
  | auipc (h : fieldOpcode w = 0b0010111#7) : DecodeRow w (aluSignals .add true) (.auipc (fieldRd w) (bitsU w))
  | jal (h : fieldOpcode w = 0b1101111#7) : DecodeRow w (jumpSignals false) (.jal (fieldRd w) (bitsJ w))
  | jalr (h : fieldOpcode w = 0b1100111#7) :
    DecodeRow w (jumpSignals true) (.jalr (fieldRd w) (fieldRs1 w) (fieldFunct3 w) (bitsI w))
  | branch (h : fieldOpcode w = 0b1100011#7) : DecodeRow w branchSignals (decodeBranch w)
  | load (h : fieldOpcode w = 0b0000011#7) : DecodeRow w loadSignals (decodeLoad w)
  | store (h : fieldOpcode w = 0b0100011#7) : DecodeRow w storeSignals (decodeStore w)
  | opImm (h : fieldOpcode w = 0b0010011#7) :
    DecodeRow w (aluSignals (aluOpOf false (funct7Bit5 (fieldFunct7 w)) (fieldFunct3 w)) true) (decodeOpImm w)
  | op (h : fieldOpcode w = 0b0110011#7) :
    DecodeRow w (aluSignals (aluOpOf true (funct7Bit5 (fieldFunct7 w)) (fieldFunct3 w)) false) (decodeOp w)
  | system (h : fieldOpcode w = 0b1110011#7) : DecodeRow w inertSignals (decodeSystem w)
  | miscMem (h : fieldOpcode w = 0b0001111#7) :
    DecodeRow w inertSignals (.miscMem (fieldRd w) (fieldRs1 w) (fieldFunct3 w) (bitsI w))
  | unrecognized (h : claimedOpcode (fieldOpcode w) = false) : DecodeRow w inertSignals (.unrecognized w)

theorem opcode_ne_of_unclaimed {op op' : BitVec 7} (h : claimedOpcode op = false) (h' : claimedOpcode op' = true) :
    op ≠ op' := by
  rintro rfl
  simp [h] at h'

/-- The control unit and the decoder choose by the same opcodes. -/
theorem decodeRow (w : Word) : DecodeRow w (controlSignals w) (decode w) := by
  unfold decode controlSignals
  split
  case h_1 h => rw [h]; exact .lui h
  case h_2 h => rw [h]; exact .auipc h
  case h_3 h => rw [h]; exact .jal h
  case h_4 h => rw [h]; exact .jalr h
  case h_5 h => rw [h]; exact .branch h
  case h_6 h => rw [h]; exact .load h
  case h_7 h => rw [h]; exact .store h
  case h_8 h => rw [h]; exact .opImm h
  case h_9 h => rw [h]; exact .op h
  case h_10 h => rw [h]; exact .system h
  case h_11 =>
    split
    case h_11 h => exact .miscMem h
    case h_12 => exact .unrecognized (by simp_all [claimedOpcode])
    all_goals contradiction

/-! ### Register indices in immediate bits -/

section
variable (w : Word)

theorem jalPort1_bitsJ : jalPort1 (bitsJ w) = fieldRs1 w := by
  refine BitVec.eq_of_getLsbD_eq fun i hi => ?_
  simp only [jalPort1, fieldRs1, BitVec.getLsbD_extractLsb', bitsJ_getLsbD]
  interval_cases i <;> rfl

theorem jalPort2_bitsJ : jalPort2 (bitsJ w) = fieldRs2 w := by
  refine BitVec.eq_of_getLsbD_eq fun i hi => ?_
  show BitVec.getLsbD (w := 4 + 1) ((bitsJ w).extractLsb' 0 4 ++ (bitsJ w).extractLsb' 10 1) i = _
  simp only [fieldRs2, BitVec.getLsbD_append, BitVec.getLsbD_extractLsb', bitsJ_getLsbD]
  interval_cases i <;> rfl

/-- The low five bits of an I immediate are the rs2 field (R58, R60). -/
theorem bitsI_low_bits : (bitsI w).extractLsb' 0 5 = fieldRs2 w := by
  refine BitVec.eq_of_getLsbD_eq fun i hi => ?_
  simp only [bitsI, fieldRs2, BitVec.getLsbD_extractLsb', hi, decide_true, Bool.true_and, Nat.zero_add,
    show i < 12 by omega]

end

/-! ### What each family's instruction runs, by the fields of the word -/

section
variable (w : Word) (s : State)

theorem exec_decodeBranch :
    exec (decodeBranch w) s = .next (s.branch (fieldFunct3 w) (fieldRs1 w) (fieldRs2 w) (bitsB w)) := by
  unfold decodeBranch
  split
  case h_7 => rfl
  all_goals next hf => rw [hf]; rfl

/-- A load of a defined width. LW runs unsigned, and its funct3 says signed: a whole word has nothing to extend. -/
theorem exec_decodeLoad_of_width {width : Width} (h : loadWidth (fieldFunct3 w) = some width) :
    exec (decodeLoad w) s = .next (s.load width (loadSigned (fieldFunct3 w)) (fieldRd w) (fieldRs1 w) (bitsI w)) := by
  unfold decodeLoad
  obtain hf | hf | hf | hf | hf | hf | hf | hf := funct3_cases (fieldFunct3 w) <;> rw [hf] at h ⊢ <;> cases h <;> rfl

theorem exec_decodeLoad_of_reserved (h : loadWidth (fieldFunct3 w) = none) :
    exec (decodeLoad w) s = .next (s.loadReserved (fieldRd w) (fieldRs1 w) (bitsI w)) := by
  unfold decodeLoad
  obtain hf | hf | hf | hf | hf | hf | hf | hf := funct3_cases (fieldFunct3 w) <;> rw [hf] at h ⊢ <;> cases h <;> rfl

theorem exec_decodeStore_of_width {width : Width} (h : storeWidth (fieldFunct3 w) = some width) :
    exec (decodeStore w) s = .next (s.store width (fieldRs1 w) (fieldRs2 w) (bitsS w)) := by
  unfold decodeStore
  obtain hf | hf | hf | hf | hf | hf | hf | hf := funct3_cases (fieldFunct3 w) <;> rw [hf] at h ⊢ <;> cases h <;> rfl

theorem exec_decodeStore_of_reserved (h : storeWidth (fieldFunct3 w) = none) :
    exec (decodeStore w) s = .next (s.storeNothing (fieldRs1 w) (bitsS w)) := by
  unfold decodeStore
  obtain hf | hf | hf | hf | hf | hf | hf | hf := funct3_cases (fieldFunct3 w) <;> rw [hf] at h ⊢ <;> cases h <;> rfl

/-- An OP-IMM word; a shift's funct7 and amount together are the whole immediate (R65). -/
theorem exec_decodeOpImm :
    exec (decodeOpImm w) s =
      .next (s.aluToReg (aluOpOf false (funct7Bit5 (fieldFunct7 w)) (fieldFunct3 w)) (fieldRd w)
        (s.readReg (fieldRs1 w)) (immI (bitsI w))) := by
  have hshift : bitsI w = shiftBits (fieldFunct7 w) (fieldRs2 w) := (shiftBits_fields w).symm
  unfold decodeOpImm
  obtain hf | hf | hf | hf | hf | hf | hf | hf := funct3_cases (fieldFunct3 w) <;> rw [hf]
  case inr.inl => rw [hshift]; rfl  -- SLLI
  case inr.inr.inr.inr.inr.inl =>  -- SRLI, SRAI
    rw [hshift]
    cases funct7Bit5 (fieldFunct7 w) <;> rfl
  all_goals rfl

theorem exec_decodeOp :
    exec (decodeOp w) s =
      .next (s.aluToReg (aluOpOf true (funct7Bit5 (fieldFunct7 w)) (fieldFunct3 w)) (fieldRd w)
        (s.readReg (fieldRs1 w)) (s.readReg (fieldRs2 w))) := by
  unfold decodeOp
  obtain hf | hf | hf | hf | hf | hf | hf | hf := funct3_cases (fieldFunct3 w) <;> rw [hf]
  case inl | inr.inr.inr.inr.inr.inl =>  -- ADD or SUB, SRL or SRA
    cases funct7Bit5 (fieldFunct7 w) <;> rfl
  all_goals rfl

theorem exec_decodeSystem : exec (decodeSystem w) s = .next (s.inert (fieldRs1 w) (fieldRs2 w)) := by
  unfold decodeSystem
  split_ifs with hecall hebreak
  · subst hecall; rfl
  · subst hebreak; rfl
  · rw [← bitsI_low_bits]; rfl

end

end Sys2Proof.Machine
end

section
/-! The ten steps of `clock()` are the run of the fetched instruction (spec/41_control_and_cycle.md R95 to R101). -/

namespace Sys2Proof.Machine

/-! ### Step 6: the memory access (R44, R118, R125) -/

section
variable (s : State) {f3 : BitVec 3} {width : Width} (addr data : Word)

theorem memoryStep_load_of_width (h : loadWidth f3 = some width) :
    s.memoryStep loadSignals f3 addr data = s.loadValue width (loadSigned f3) addr := by
  simp only [State.memoryStep, State.access, State.loadValue, loadSignals, h, if_true]
  cases s.memRead width addr <;> rfl

theorem memoryStep_load_of_reserved (h : loadWidth f3 = none) :
    s.memoryStep loadSignals f3 addr data = s.drawReserved := by
  simp only [State.memoryStep, loadSignals, h, if_true]

theorem memoryStep_store_of_width (h : storeWidth f3 = some width) :
    s.memoryStep storeSignals f3 addr data = (0#32, s.memWrite width addr data) := by
  simp [State.memoryStep, State.access, storeSignals, h]

theorem memoryStep_store_of_reserved (h : storeWidth f3 = none) :
    s.memoryStep storeSignals f3 addr data = (0#32, s) := by
  simp [State.memoryStep, storeSignals, h]

end

/-! ### The whole clock, by the signals of the fetched word -/

section
variable {s : State} {w : Word} (hw : s.fetch s.pc = w)
include hw

theorem clock_of_aluSignals {op : AluOp} {aluSrc : Bool} (hsig : controlSignals w = aluSignals op aluSrc) :
    clock s = s.aluToReg op (fieldRd w) (operandA (decoderOut w) s.pc (s.readReg (fieldRs1 w)))
      (operandB (aluSignals op aluSrc) (decoderOut w) (s.readReg (fieldRs2 w))) := by
  simp only [clock, hw, hsig]
  rfl

theorem clock_of_jumpSignals {aluSrc : Bool} (hsig : controlSignals w = jumpSignals aluSrc) :
    clock s = s.linkAndJump (fieldRd w) (operandA (decoderOut w) s.pc (s.readReg (fieldRs1 w)))
      (operandB (jumpSignals aluSrc) (decoderOut w) (s.readReg (fieldRs2 w)))
      (jumpTarget (decoderOut w) s.pc (s.readReg (fieldRs1 w))) := by
  simp only [clock, hw, hsig]
  rfl

theorem clock_of_branchSignals (hsig : controlSignals w = branchSignals) (ho : fieldOpcode w = 0b1100011#7) :
    clock s = s.branch (fieldFunct3 w) (fieldRs1 w) (fieldRs2 w) (bitsB w) := by
  simp only [clock, hw, hsig, operandA, jumpTarget, decoderOut, ho]
  rfl

theorem clock_of_loadSignals_of_width (hsig : controlSignals w = loadSignals) (ho : fieldOpcode w = 0b0000011#7)
    {width : Width} (h : loadWidth (fieldFunct3 w) = some width) :
    clock s = s.load width (loadSigned (fieldFunct3 w)) (fieldRd w) (fieldRs1 w) (bitsI w) := by
  simp only [clock, hw, hsig, operandA, operandB, decoderOut, ho, memoryStep_load_of_width _ _ _ h]
  rfl

theorem clock_of_loadSignals_of_reserved (hsig : controlSignals w = loadSignals) (ho : fieldOpcode w = 0b0000011#7)
    (h : loadWidth (fieldFunct3 w) = none) :
    clock s = s.loadReserved (fieldRd w) (fieldRs1 w) (bitsI w) := by
  simp only [clock, hw, hsig, operandA, operandB, decoderOut, ho, memoryStep_load_of_reserved _ _ _ h]
  rfl

theorem clock_of_storeSignals_of_width (hsig : controlSignals w = storeSignals) (ho : fieldOpcode w = 0b0100011#7)
    {width : Width} (h : storeWidth (fieldFunct3 w) = some width) :
    clock s = s.store width (fieldRs1 w) (fieldRs2 w) (bitsS w) := by
  simp only [clock, hw, hsig, operandA, operandB, decoderOut, ho, memoryStep_store_of_width _ _ _ h]
  rfl

theorem clock_of_storeSignals_of_reserved (hsig : controlSignals w = storeSignals) (ho : fieldOpcode w = 0b0100011#7)
    (h : storeWidth (fieldFunct3 w) = none) :
    clock s = s.storeNothing (fieldRs1 w) (bitsS w) := by
  simp only [clock, hw, hsig, operandA, operandB, decoderOut, ho, memoryStep_store_of_reserved _ _ _ h]
  rfl

theorem clock_of_inertSignals (hsig : controlSignals w = inertSignals) (hlui : fieldOpcode w ≠ 0b0110111#7)
    (hauipc : fieldOpcode w ≠ 0b0010111#7) :
    clock s = s.inert (fieldRs1 w) (fieldRs2 w) := by
  have ha : operandA (decoderOut w) s.pc (s.readReg (decoderOut w).rs1) = s.readReg (fieldRs1 w) :=
    (if_neg hlui).trans (if_neg hauipc)
  simp only [clock, hw, hsig, ha]
  rfl

/-- Row by row of the decode table, the instruction runs as the ten steps do with the row's signals. -/
theorem DecodeRow.exec_eq_clock {sig : ControlSignals} {i : Instr} (row : DecodeRow w sig i)
    (hsig : controlSignals w = sig) : exec i s = .next (clock s) := by
  cases row with
  | lui h | auipc h =>
    rw [clock_of_aluSignals hw hsig]
    simp only [operandA, operandB, decoderOut, h]
    rfl
  | jal h =>
    rw [clock_of_jumpSignals hw hsig, ← jalPort1_bitsJ, ← jalPort2_bitsJ]
    simp only [operandA, jumpTarget, decoderOut, h]
    rfl
  | jalr h =>
    rw [clock_of_jumpSignals hw hsig]
    simp only [operandA, operandB, jumpTarget, decoderOut, h]
    rfl
  | branch h => rw [exec_decodeBranch, clock_of_branchSignals hw hsig h]
  | load h =>
    cases hwidth : loadWidth (fieldFunct3 w) with
    | none => rw [exec_decodeLoad_of_reserved w s hwidth, clock_of_loadSignals_of_reserved hw hsig h hwidth]
    | some width => rw [exec_decodeLoad_of_width w s hwidth, clock_of_loadSignals_of_width hw hsig h hwidth]
  | store h =>
    cases hwidth : storeWidth (fieldFunct3 w) with
    | none => rw [exec_decodeStore_of_reserved w s hwidth, clock_of_storeSignals_of_reserved hw hsig h hwidth]
    | some width => rw [exec_decodeStore_of_width w s hwidth, clock_of_storeSignals_of_width hw hsig h hwidth]
  | opImm h =>
    rw [exec_decodeOpImm, clock_of_aluSignals hw hsig]
    simp only [operandA, operandB, decoderOut, h]
    rfl
  | op h =>
    rw [exec_decodeOp, clock_of_aluSignals hw hsig]
    simp only [operandA, operandB, decoderOut, h]
    rfl
  | system h => rw [exec_decodeSystem, clock_of_inertSignals hw hsig (by simp [h]) (by simp [h])]
  | miscMem h =>
    rw [clock_of_inertSignals hw hsig (by simp [h]) (by simp [h]), ← bitsI_low_bits]
    rfl
  | unrecognized h =>
    rw [clock_of_inertSignals hw hsig (opcode_ne_of_unclaimed h rfl) (opcode_ne_of_unclaimed h rfl)]
    rfl

end

/-- Settles O15: the step runs the instruction of the fetched word's row of the decode table, and the ten steps run that
row's signals. -/
theorem stepIsTheTenStepCycle : Obligations.StepIsTheTenStepCycle := fun s =>
  (decodeRow (s.fetch s.pc)).exec_eq_clock rfl rfl

end Sys2Proof.Machine
end

section
/-! The control unit (spec/41_control_and_cycle.md R91 to R94): the operation mapping, the inert default, and the signals
beside what the decoded instruction is. -/

namespace Sys2Proof.Machine

/-- The mapping of funct3, with bit 30 where it counts (R93). -/
theorem aluOpOf_eq (isOp f5 : Bool) (f3 : BitVec 3) :
    aluOpOf isOp f5 f3 =
      if f3 = 0b000#3 then (if isOp = true ∧ f5 = true then .sub else .add)
      else if f3 = 0b001#3 then .sll
      else if f3 = 0b010#3 then .slt
      else if f3 = 0b011#3 then .sltu
      else if f3 = 0b100#3 then .xor
      else if f3 = 0b101#3 then (if f5 = true then .sra else .srl)
      else if f3 = 0b110#3 then .or
      else .and := by
  revert isOp f5 f3
  decide

section
variable {w : Word} {sig : ControlSignals} {i : Instr}

theorem DecodeRow.aluOp_of_op (row : DecodeRow w sig i) (ho : fieldOpcode w = 0b0110011#7) :
    sig.aluOp = aluOpOf true (w.getLsbD 30) (fieldFunct3 w) := by
  rw [← funct7Bit5_fieldFunct7]
  cases row with
  | op => rfl
  | unrecognized h => exact absurd ho (opcode_ne_of_unclaimed h rfl)
  | _ h => simp [ho] at h

theorem DecodeRow.aluOp_of_opImm (row : DecodeRow w sig i) (ho : fieldOpcode w = 0b0010011#7) :
    sig.aluOp = aluOpOf false (w.getLsbD 30) (fieldFunct3 w) := by
  rw [← funct7Bit5_fieldFunct7]
  cases row with
  | opImm => rfl
  | unrecognized h => exact absurd ho (opcode_ne_of_unclaimed h rfl)
  | _ h => simp [ho] at h

/-- An opcode outside the ten has the inert signals; the decoder names it UNRECOGNIZED or MISC-MEM (R94, R154). -/
theorem DecodeRow.inert_of_unlisted (row : DecodeRow w sig i) (ho : fieldOpcode w ∉ listedOpcodes) :
    sig = inertSignals ∧
      (i = .unrecognized w ∨
        fieldOpcode w = 0b0001111#7 ∧ i = .miscMem (fieldRd w) (fieldRs1 w) (fieldFunct3 w) (bitsI w)) := by
  cases row with
  | unrecognized => exact ⟨rfl, .inl rfl⟩
  | miscMem h => exact ⟨rfl, .inr ⟨h, rfl⟩⟩
  | _ h => simp [h, listedOpcodes] at ho

end

/-- Settles O13: the rows of OP and OP-IMM apply the mapping of funct3, and the other opcodes' row is inert. -/
theorem aluOperationMappingAndInertDefault : Obligations.AluOperationMappingAndInertDefault := by
  refine ⟨fun w h => ?_, fun w h => (decodeRow w).inert_of_unlisted h⟩
  obtain ho | ho := h
  · rw [(decodeRow w).aluOp_of_op ho, aluOpOf_eq]
    simp [ho]
  · rw [(decodeRow w).aluOp_of_opImm ho, aluOpOf_eq]
    simp [ho]

/-! ### Destination and transfer of each family's instructions -/

section
variable (w : Word)

theorem decodeBranch_kind : destination (decodeBranch w) = none ∧ transfersControl (decodeBranch w) = true := by
  unfold decodeBranch
  split <;> exact ⟨rfl, rfl⟩

theorem decodeLoad_kind :
    destination (decodeLoad w) = some (fieldRd w) ∧ transfersControl (decodeLoad w) = false := by
  unfold decodeLoad
  split <;> exact ⟨rfl, rfl⟩

theorem decodeStore_kind : destination (decodeStore w) = none ∧ transfersControl (decodeStore w) = false := by
  unfold decodeStore
  split <;> exact ⟨rfl, rfl⟩

theorem decodeOpImm_kind :
    destination (decodeOpImm w) = some (fieldRd w) ∧ transfersControl (decodeOpImm w) = false := by
  unfold decodeOpImm
  split
  case h_6 => split <;> exact ⟨rfl, rfl⟩
  all_goals exact ⟨rfl, rfl⟩

theorem decodeOp_kind : destination (decodeOp w) = some (fieldRd w) ∧ transfersControl (decodeOp w) = false := by
  unfold decodeOp
  split
  case h_1 | h_6 => split <;> exact ⟨rfl, rfl⟩
  all_goals exact ⟨rfl, rfl⟩

theorem decodeSystem_kind : destination (decodeSystem w) = none ∧ transfersControl (decodeSystem w) = false := by
  unfold decodeSystem
  split_ifs <;> exact ⟨rfl, rfl⟩

end

section
variable {w : Word} {sig : ControlSignals} {i : Instr}

/-- A row's signals reg_write, branch and jump are what its instruction is (R92). -/
theorem DecodeRow.fits (row : DecodeRow w sig i) :
    sig.regWrite = (destination i).isSome ∧ (sig.branch || sig.jump) = transfersControl i ∧
      (sig.branch && sig.jump) = false := by
  cases row with
  | lui | auipc | jal | jalr | miscMem | unrecognized => exact ⟨rfl, rfl, rfl⟩
  | branch => simp only [decodeBranch_kind]; exact ⟨rfl, rfl, rfl⟩
  | load => simp only [decodeLoad_kind]; exact ⟨rfl, rfl, rfl⟩
  | store => simp only [decodeStore_kind]; exact ⟨rfl, rfl, rfl⟩
  | opImm => simp only [decodeOpImm_kind]; exact ⟨rfl, rfl, rfl⟩
  | op => simp only [decodeOp_kind]; exact ⟨rfl, rfl, rfl⟩
  | system => simp only [decodeSystem_kind]; exact ⟨rfl, rfl, rfl⟩

/-- Of the rows, STORE's alone has mem_write, LOAD's alone mem_read, and mem_to_reg is mem_read (R92, D16). -/
theorem DecodeRow.memory_signals (row : DecodeRow w sig i) :
    sig.memWrite = decide (fieldOpcode w = 0b0100011#7) ∧ sig.memRead = decide (fieldOpcode w = 0b0000011#7) ∧
      sig.memToReg = sig.memRead := by
  cases row with
  | unrecognized h =>
    have hstore : fieldOpcode w ≠ 0b0100011#7 := opcode_ne_of_unclaimed h rfl
    have hload : fieldOpcode w ≠ 0b0000011#7 := opcode_ne_of_unclaimed h rfl
    simp [hstore, hload, inertSignals]
  | _ h => rw [h]; exact ⟨rfl, rfl, rfl⟩

end

/-- Settles O14: each row's signals fit its instruction. -/
theorem controlSignalsFitTheInstruction : Obligations.ControlSignalsFitTheInstruction := by
  intro w
  obtain ⟨hreg, htransfer, hboth⟩ := (decodeRow w).fits
  obtain ⟨hwrite, hread, htoReg⟩ := (decodeRow w).memory_signals
  refine ⟨?_, ?_, ?_, ?_, ?_, ?_, htoReg⟩
  · rw [hread, hwrite]
    simp only [decide_eq_true_eq]
    rintro ⟨hload, hstore⟩
    exact absurd (hload.symm.trans hstore) (by decide)
  · rw [← Bool.and_eq_true, hboth]; decide
  · rw [hreg, Option.isSome_iff_ne_none]
  · rw [← Bool.or_eq_true, htransfer]
  · rw [hwrite, decide_eq_true_eq]
  · rw [hread, decide_eq_true_eq]

end Sys2Proof.Machine
end

section
/-! What every instruction does to `pc` and memory, and runs of many cycles (spec/41_control_and_cycle.md R98 to R102,
R180; spec/44_loads_stores.md R125, R129). -/

namespace Sys2Proof.Machine

section
variable {s t : State} {dest : Option RegIdx} {writes transfers : Bool}

/-- A cycle of a shape that transfers no control goes on at `pc + 4` (R98). -/
theorem Cycle.pc_eq_add_four (h : Cycle s dest writes false t) : t.pc = s.pc + 4#32 := by
  cases h <;> simp

/-- A cycle of a shape that writes no memory leaves it as it is. -/
theorem Cycle.mem_eq_of_not_writes (h : Cycle s dest false transfers t) : t.mem = s.mem := by
  cases h <;> simp

end

theorem alignPc_toNat_mod_four (target : Word) : (alignPc target).toNat % 4 = 0 := by
  simpa using congrArg BitVec.toNat (alignPc_low_bits target)

/-- Settles O28: a cycle that transfers no control goes on at `pc + 4`, another one there or at a masked target. -/
theorem transfersLandOnMultiplesOfFour : Obligations.TransfersLandOnMultiplesOfFour := by
  intro i s t h
  have hcycle := cycle_of_exec h
  cases htransfers : transfersControl i with
  | false =>
    rw [htransfers] at hcycle
    exact .inl hcycle.pc_eq_add_four
  | true =>
    obtain hnext | ⟨target, htarget⟩ := hcycle.pc_eq
    · exact .inl hnext
    · exact .inr ⟨rfl, htarget ▸ alignPc_toNat_mod_four target⟩

/-- Settles O50: a cycle of no store leaves memory as it is, and a byte is read from memory and its size. -/
theorem onlyStoresChangeMemory : Obligations.OnlyStoresChangeMemory := by
  intro i s t hwrites h
  have hcycle := cycle_of_exec h
  have hsize : t.memSize = s.memSize := hcycle.memSize_eq
  rw [hwrites] at hcycle
  have hmem : t.mem = s.mem := hcycle.mem_eq_of_not_writes
  exact ⟨hmem, fun a => by rw [State.byteAt, hmem, hsize, State.byteAt]⟩

/-- Settles O17: a step is by definition the meaning of the decoded word. -/
theorem stepRunsTheDecodedInstruction : Obligations.StepRunsTheDecodedInstruction :=
  fun s _ _ hdecode => congrArg (exec · s) hdecode

/-! ### Runs (R102) -/

/-- Every step completes, and counts one cycle. -/
theorem step_eq_next (s : State) : ∃ t, step s = .next t ∧ t.cycleCount = s.cycleCount + 1#64 := by
  obtain ⟨t, h, hcycle⟩ := exec_eq_next_cycle (decode (s.fetch s.pc)) s
  exact ⟨t, h, hcycle.cycleCount_eq⟩

theorem runCycles_succ {s t : State} (h : step s = .next t) (n : Nat) : runCycles (n + 1) s = runCycles n t := by
  rw [runCycles, h]

theorem runCycles_add {s t : State} {m : Nat} (n : Nat) (h : runCycles m s = .next t) :
    runCycles (m + n) s = runCycles n t := by
  induction m generalizing s with
  | zero =>
    cases h
    rw [Nat.zero_add]
  | succ m ih =>
    obtain ⟨u, hstep, -⟩ := step_eq_next s
    rw [runCycles_succ hstep] at h
    rw [Nat.succ_add, runCycles_succ hstep, ih h]

theorem runCycles_completes (n : Nat) (s : State) :
    ∃ t, runCycles n s = .next t ∧ t.cycleCount = s.cycleCount + BitVec.ofNat 64 n := by
  induction n generalizing s with
  | zero => exact ⟨s, rfl, (BitVec.add_zero _).symm⟩
  | succ n ih =>
    obtain ⟨u, hstep, hone⟩ := step_eq_next s
    obtain ⟨t, hrun, hcount⟩ := ih u
    refine ⟨t, (runCycles_succ hstep n).trans hrun, ?_⟩
    rw [hcount, hone, BitVec.ofNat_add, BitVec.add_assoc, BitVec.add_comm 1#64]

/-- Settles O59: by induction on the number of cycles, every one of which completes. -/
theorem runCyclesIsExactlyNClocks : Obligations.RunCyclesIsExactlyNClocks := by
  refine ⟨fun _ => rfl, fun _ n _ _ h => runCycles_add n h, runCycles_completes, fun s => ?_⟩
  obtain ⟨t, hstep, -⟩ := step_eq_next s
  rw [runCycles_succ hstep, hstep]
  rfl

end Sys2Proof.Machine
end

section
/-! LUI and AUIPC (spec/42_upper_immediate.md R104, R105), by what every instruction that writes its ALU result leaves
(R18, R20, R26, R98, R99). -/

namespace Sys2Proof.Machine

/-- A state that reads at every index as after a write of `rd` has `rd` written, register 0 included (R18, R20). -/
theorem regWritten_of_readReg {s t : State} {rd : RegIdx} {value : Word}
    (h : ∀ r, t.readReg r = if r = rd ∧ rd ≠ 0#5 then value else s.readReg r) : RegWritten rd value s t :=
  ⟨fun hrd => (h rd).trans (if_pos ⟨rfl, hrd⟩), readReg_zero t, fun r hr => (h r).trans (if_neg fun hw => hr hw.1)⟩

/-- An instruction that runs as `aluToReg` leaves the ALU's result in `rd`, with its flags. -/
theorem writesRegister_of_aluToReg {i : Instr} {s : State} {op : AluOp} {rd : RegIdx} {a b : Word}
    (h : exec i s = .next (s.aluToReg op rd a b)) : WritesRegister i s rd (aluResult op a b) (aluFlags op a b) :=
  ⟨_, h, regWritten_of_readReg fun r => aluToReg_readReg s op rd r a b, aluToReg_flags .., aluToReg_byteAt s op rd a b,
    aluToReg_mem .., ⟨aluToReg_pc .., aluToReg_cycleCount ..⟩, aluToReg_memSize .., aluToReg_draws ..⟩

/-- The U-immediate is its 20 bits shifted left by 12 (R63). -/
theorem immU_eq_shiftLeft (imm20 : BitVec 20) : immU imm20 = imm20.setWidth 32 <<< 12 := by
  have hfits : imm20.toNat * 2 ^ 12 < 2 ^ 32 := by omega
  apply BitVec.eq_of_toNat_eq
  rw [immU_toNat, BitVec.toNat_shiftLeft, BitVec.toNat_setWidth_of_le (by decide), Nat.shiftLeft_eq,
    Nat.mod_eq_of_lt hfits]
  omega

theorem decode_of_lui {w : Word} (h : fieldOpcode w = 0b0110111#7) : decode w = .lui (fieldRd w) (bitsU w) := by
  simp [decode, h]

theorem decode_of_auipc {w : Word} (h : fieldOpcode w = 0b0010111#7) : decode w = .auipc (fieldRd w) (bitsU w) := by
  simp [decode, h]

theorem exec_lui (rd : RegIdx) (imm20 : BitVec 20) (s : State) :
    exec (.lui rd imm20) s = .next (s.aluToReg .passB rd 0#32 (immU imm20)) := rfl

theorem exec_auipc (rd : RegIdx) (imm20 : BitVec 20) (s : State) :
    exec (.auipc rd imm20) s = .next (s.aluToReg .add rd s.pc (immU imm20)) := rfl

/-- Settles O22: the row fixes the opcode, and PassB gives the immediate with C = V = 0. -/
theorem luiWritesTheUpperImmediate : Obligations.LuiWritesTheUpperImmediate := by
  refine ⟨fun w h => decode_of_lui (fieldOpcode_of_row h rfl), fun rd imm20 s => ?_⟩
  have hwrites := writesRegister_of_aluToReg (exec_lui rd imm20 s)
  rwa [aluFlags_eq_resultFlags _ _ (by decide) (by decide), aluResult, immU_eq_shiftLeft] at hwrites

/-- Settles O23: the row fixes the opcode, and Add gives the sum of the instruction's own `pc` and the immediate. -/
theorem auipcAddsTheUpperImmediateToPc : Obligations.AuipcAddsTheUpperImmediateToPc := by
  refine ⟨fun w h => decode_of_auipc (fieldOpcode_of_row h rfl), fun rd imm20 s => ?_⟩
  have hwrites := writesRegister_of_aluToReg (exec_auipc rd imm20 s)
  rwa [aluFlags_add, aluResult, immU_eq_shiftLeft] at hwrites

end Sys2Proof.Machine
end

section
/-! Jumps and branches (spec/43_jumps_branches.md R106 to R116), by what the two shapes of a cycle that transfer
control leave in each field (R18, R20, R98, R99). -/

namespace Sys2Proof.Machine

/-! ### JAL and JALR (R106, R107) -/

/-- An instruction that runs as `linkAndJump` leaves the link in `rd`, with the flags of Add, at the masked target. -/
theorem jumps_of_linkAndJump {i : Instr} {s : State} {rd : RegIdx} {a b target : Word}
    (h : exec i s = .next (s.linkAndJump rd a b target)) :
    ∃ t, exec i s = .next t ∧ RegWritten rd (s.pc + 4#32) s t ∧ t.pc = alignPc target ∧ t.flags = addFlags a b ∧
      BytesSame s t ∧ t.mem = s.mem ∧ t.cycleCount = s.cycleCount + 1#64 ∧ OwnSame s t :=
  ⟨_, h, regWritten_of_readReg fun r => linkAndJump_readReg s rd r a b target, linkAndJump_pc ..,
    (linkAndJump_flags ..).trans (aluFlags_add ..), linkAndJump_byteAt s rd a b target, linkAndJump_mem ..,
    linkAndJump_cycleCount .., linkAndJump_memSize .., linkAndJump_draws ..⟩

theorem decode_of_jal {w : Word} (h : fieldOpcode w = 0b1101111#7) : decode w = .jal (fieldRd w) (bitsJ w) := by
  simp [decode, h]

theorem exec_jal (rd : RegIdx) (off20 : BitVec 20) (s : State) :
    exec (.jal rd off20) s =
      .next (s.linkAndJump rd (s.readReg (jalPort1 off20)) (s.readReg (jalPort2 off20)) (s.pc + immJ off20)) := rfl

theorem exec_jalr (rd rs1 : RegIdx) (funct3 : BitVec 3) (imm12 : BitVec 12) (s : State) :
    exec (.jalr rd rs1 funct3 imm12) s =
      .next (s.linkAndJump rd (s.readReg rs1) (immI imm12) (s.baseOffset rs1 imm12 &&& ~~~1#32)) := rfl

/-- The word of a JAL shows its immediate bits at the rs1 field to read port 1 (R64). -/
theorem fieldRs1_encode_jal (rd : RegIdx) (off20 : BitVec 20) : fieldRs1 (encode (.jal rd off20)) = jalPort1 off20 := by
  rw [← jalPort1_bitsJ, encode, bitsJ_packJ]

/-- The word of a JAL shows its immediate bits at the rs2 field to read port 2 (R64). -/
theorem fieldRs2_encode_jal (rd : RegIdx) (off20 : BitVec 20) : fieldRs2 (encode (.jal rd off20)) = jalPort2 off20 := by
  rw [← jalPort2_bitsJ, encode, bitsJ_packJ]

/-- JALR's own mask of bit 0 is lost in the mask of every target (R98, R107). -/
theorem alignPc_clearBit0 (target : Word) : alignPc (target &&& ~~~1#32) = alignPc target := by
  rw [alignPc, BitVec.and_assoc]
  rfl

/-- Settles O24: the row fixes the opcode, and JAL's read ports are the rs1 and rs2 fields of its word. -/
theorem jalLinksAndJumps : Obligations.JalLinksAndJumps := by
  refine ⟨fun w h => ⟨bitsJ w, decode_of_jal (fieldOpcode_of_row h rfl), rfl⟩, fun rd off20 s w hw => ?_⟩
  have hjumps := jumps_of_linkAndJump (exec_jal rd off20 s)
  rwa [← fieldRs1_encode_jal rd, ← fieldRs2_encode_jal rd, ← hw] at hjumps

/-- Settles O25: the row fixes the opcode, and the base register is read from the state before the link is written. -/
theorem jalrLinksAndJumps : Obligations.JalrLinksAndJumps := by
  refine ⟨fun w h => decode_of_jalr (fieldOpcode_of_row h rfl), fun rd rs1 funct3 imm12 s => ?_⟩
  have hjumps := jumps_of_linkAndJump (exec_jalr rd rs1 funct3 imm12 s)
  rwa [alignPc_clearBit0] at hjumps

/-! ### Branches (R108 to R116) -/

/-- An instruction that runs as `branch` is taken exactly when its condition holds. -/
theorem branches_of_branch {i : Instr} {s : State} {f3 : BitVec 3} {rs1 rs2 : RegIdx} {off12 : BitVec 12} {taken : Prop}
    (h : exec i s = .next (s.branch f3 rs1 rs2 off12))
    (hcond : branchCond f3 (s.readReg rs1) (s.readReg rs2) = true ↔ taken) : Branches i s rs1 rs2 off12 taken :=
  ⟨_, h, fun htaken => (branch_pc ..).trans (if_pos (hcond.mpr htaken)),
    fun hnot => (branch_pc ..).trans (if_neg fun hc => hnot (hcond.mp hc)),
    (branch_flags ..).trans (aluFlags_sub ..), branch_readReg s f3 rs1 rs2 off12, branch_byteAt s f3 rs1 rs2 off12,
    branch_mem .., branch_cycleCount .., branch_memSize .., branch_draws ..⟩

section
variable (v1 v2 : Word)

/-! The condition of each funct3 as a relation of the two registers' values (R109). -/

theorem branchCond_beq_iff : branchCond 0b000#3 v1 v2 = true ↔ v1 = v2 := beq_iff_eq

theorem branchCond_bne_iff : branchCond 0b001#3 v1 v2 = true ↔ v1 ≠ v2 := bne_iff_ne

theorem branchCond_blt_iff : branchCond 0b100#3 v1 v2 = true ↔ v1.toInt < v2.toInt := BitVec.slt_iff_toInt_lt

/-- BGE's condition is the negation of BLT's (R112, R113). -/
theorem branchCond_bge_iff : branchCond 0b101#3 v1 v2 = true ↔ v2.toInt ≤ v1.toInt := by
  rw [← Int.not_lt, ← branchCond_blt_iff, Bool.not_eq_true, ← Bool.not_eq_true']
  rfl

theorem branchCond_bltu_iff : branchCond 0b110#3 v1 v2 = true ↔ v1.toNat < v2.toNat := BitVec.ult_iff_lt

/-- BGEU's condition is the negation of BLTU's (R114, R115). -/
theorem branchCond_bgeu_iff : branchCond 0b111#3 v1 v2 = true ↔ v2.toNat ≤ v1.toNat := by
  rw [← Nat.not_lt, ← branchCond_bltu_iff, Bool.not_eq_true, ← Bool.not_eq_true']
  rfl

/-- The two reserved values of funct3 are never taken (R116, D7). -/
theorem branchCond_reserved {f3 : BitVec 3} (h : f3 = 0b010#3 ∨ f3 = 0b011#3) : branchCond f3 v1 v2 = true ↔ False := by
  obtain rfl | rfl := h <;> exact iff_of_false Bool.false_ne_true id

end

/-- Settles O26: every branch runs as `branch` with its own funct3, whose condition is the one stated. -/
theorem branchesFollowTheirConditions : Obligations.BranchesFollowTheirConditions := fun _ _ _ _ =>
  ⟨branches_of_branch rfl (branchCond_beq_iff ..), branches_of_branch rfl (branchCond_bne_iff ..),
    branches_of_branch rfl (branchCond_blt_iff ..), branches_of_branch rfl (branchCond_bge_iff ..),
    branches_of_branch rfl (branchCond_bltu_iff ..), branches_of_branch rfl (branchCond_bgeu_iff ..),
    branches_of_branch rfl (branchCond_reserved _ _ (.inl rfl)),
    branches_of_branch rfl (branchCond_reserved _ _ (.inr rfl))⟩

end Sys2Proof.Machine
end

section
/-! Loads and stores (spec/44_loads_stores.md R118 to R129), by what the shapes of a cycle that use the data port or
draw a free value leave in each field (R18, R20, R42, R43, R98, R99). -/

namespace Sys2Proof.Machine

section
variable {i : Instr} {s : State} {w : Width} {sg : Bool} {rd rs1 rs2 : RegIdx} {imm : BitVec 12}

/-! ### Loads (R118, R124) -/

theorem writesRegister_of_writeReg {f : Flags} {value : Word}
    (h : exec i s = .next ((s.setFlags f).writeReg rd value).advance) : WritesRegister i s rd value f :=
  ⟨_, h, regWritten_of_readReg fun r => readReg_writeReg (s.setFlags f) rd r value, by simp, fun a => by simp, by simp,
    ⟨by simp, by simp⟩, by simp, by simp⟩

theorem drawsRegister_of_writeReg {f : Flags} {value : Word}
    (h : exec i s = .next (({ s.setFlags f with draws := s.draws + 1 }).writeReg rd value).advance) :
    DrawsRegister i s rd value f :=
  ⟨_, h, regWritten_of_readReg fun r => readReg_writeReg { s.setFlags f with draws := s.draws + 1 } rd r value, by simp,
    writeReg_byteAt { s.setFlags f with draws := s.draws + 1 } rd value, by simp, ⟨by simp, by simp⟩, by simp, by simp⟩

/-- A load whose read gives a raw value leaves the raw value's extension in `rd`. -/
theorem writesRegister_of_load {raw value : Word} (h : exec i s = .next (s.load w sg rd rs1 imm))
    (hread : s.memRead w (s.baseOffset rs1 imm) = some raw) (hvalue : extendLoad w sg raw = value) :
    WritesRegister i s rd value (addFlags (s.readReg rs1) (immI imm)) := by
  rw [load_of_memRead s w sg rd rs1 imm raw hread, aluFlags_add, hvalue] at h
  exact writesRegister_of_writeReg h

/-- A load at a misaligned address leaves the free value in `rd` (D4). -/
theorem drawsRegister_of_load (h : exec i s = .next (s.load w sg rd rs1 imm))
    (halign : (s.baseOffset rs1 imm).toNat % widthBytes w ≠ 0) :
    DrawsRegister i s rd (Config.misalignedLoadValue s.draws) (addFlags (s.readReg rs1) (immI imm)) := by
  have hread := (memRead_eq_none s w _).mpr ((aligned_eq_false_iff w _).mpr halign)
  rw [load_of_misaligned s w sg rd rs1 imm hread, aluFlags_add] at h
  exact drawsRegister_of_writeReg h

/-- A load of a reserved funct3 leaves the free value in `rd` (D5). -/
theorem drawsRegister_of_loadReserved (h : exec i s = .next (s.loadReserved rd rs1 imm)) :
    DrawsRegister i s rd (Config.reservedLoadValue s.draws) (addFlags (s.readReg rs1) (immI imm)) := by
  rw [loadReserved_eq, aluFlags_add] at h
  exact drawsRegister_of_writeReg h

/-- The data port pads a value with zeros, which the load path cuts off again before it extends (R42, R118). -/
theorem extractLsb'_setWidth_word {n : Nat} (hn : n ≤ 32) (x : BitVec n) : (x.setWidth 32).extractLsb' 0 n = x :=
  (BitVec.extractLsb'_setWidth_of_le (by omega)).trans BitVec.extractLsb'_eq_self

theorem extendLoad_byte_signed (b : Byte) : extendLoad .byte true (b.setWidth 32) = b.signExtend 32 :=
  congrArg (BitVec.signExtend 32) (extractLsb'_setWidth_word (by decide) b)

theorem extendLoad_byte_unsigned (b : Byte) : extendLoad .byte false (b.setWidth 32) = b.setWidth 32 :=
  congrArg (BitVec.setWidth 32) (extractLsb'_setWidth_word (by decide) b)

theorem extendLoad_half_signed (x : BitVec 16) : extendLoad .half true (x.setWidth 32) = x.signExtend 32 :=
  congrArg (BitVec.signExtend 32) (extractLsb'_setWidth_word (by decide) x)

theorem extendLoad_half_unsigned (x : BitVec 16) : extendLoad .half false (x.setWidth 32) = x.setWidth 32 :=
  congrArg (BitVec.setWidth 32) (extractLsb'_setWidth_word (by decide) x)

/-! ### Stores (R125, R129) -/

/-- The bytes a STORE leaves are those its write of the data port leaves (R125). -/
theorem store_byteAt (a : Word) :
    (s.store w rs1 rs2 imm).byteAt a = (s.memWrite w (s.baseOffset rs1 imm) (s.readReg rs2)).byteAt a := by
  simp only [State.byteAt, store_mem, store_memSize, memWrite_memSize]

/-- A store at an aligned address leaves the bytes of `x[rs2]` in the cells its width covers. -/
theorem storesBytes_of_store (h : exec i s = .next (s.store w rs1 rs2 imm)) (hm : Memory.wf s.mem = true)
    (halign : (s.baseOffset rs1 imm).toNat % widthBytes w = 0) :
    StoresBytes i s (s.baseOffset rs1 imm) (s.readReg rs2) (widthBytes w) (addFlags (s.readReg rs1) (immI imm)) := by
  have ha : aligned w (s.baseOffset rs1 imm) = true := (aligned_iff w _).mpr halign
  refine ⟨_, h, fun r => store_readReg .., (store_flags ..).trans (aluFlags_add ..), ⟨store_pc .., store_cycleCount ..⟩,
    ⟨store_memSize .., store_draws ..⟩, fun b => ⟨fun k hk hb => ?selected, fun hb => ?other⟩⟩
  case selected => rw [store_byteAt, byteAt_memWrite_selected s w _ b _ hm ha hk hb]
  case other => rw [store_byteAt, byteAt_memWrite_other s w _ b _ hm hb]

theorem changesFlagsOnly_of_storeNothing (h : exec i s = .next (s.storeNothing rs1 imm)) :
    ChangesFlagsOnly i s (addFlags (s.readReg rs1) (immI imm)) :=
  ⟨_, h, fun _ => rfl, aluFlags_add .., fun _ => rfl, rfl, ⟨rfl, rfl⟩, rfl, rfl⟩

/-- A store at a misaligned address runs as one of a reserved funct3 (R43, R129, D21). -/
theorem changesFlagsOnly_of_store (h : exec i s = .next (s.store w rs1 rs2 imm))
    (halign : (s.baseOffset rs1 imm).toNat % widthBytes w ≠ 0) :
    ChangesFlagsOnly i s (addFlags (s.readReg rs1) (immI imm)) := by
  have ha : aligned w (s.baseOffset rs1 imm) = false := (aligned_eq_false_iff w _).mpr halign
  rw [State.store, memWrite_of_misaligned _ w _ _ ha] at h
  exact changesFlagsOnly_of_storeNothing h

end

/-! ### The obligations of the family -/

/-- Settles O29: each width's aligned read gives its bytes, which the load path extends. -/
theorem alignedLoadsExtend : Obligations.AlignedLoadsExtend := by
  rintro rd rs1 imm12 s _ _ rfl rfl
  refine ⟨writesRegister_of_load rfl (memRead_byte s _) (extendLoad_byte_signed _),
    writesRegister_of_load rfl (memRead_byte s _) (extendLoad_byte_unsigned _), fun h => ?half, fun h => ?word⟩
  case half =>
    have hread := memRead_half s (s.baseOffset rs1 imm12) ((aligned_iff .half _).mpr h)
    exact ⟨writesRegister_of_load rfl hread (extendLoad_half_signed _),
      writesRegister_of_load rfl hread (extendLoad_half_unsigned _)⟩
  case word =>
    have hread := memRead_word s (s.baseOffset rs1 imm12) ((aligned_iff .word _).mpr h)
    rw [State.wordAt, wordIndex_eq] at hread
    exact writesRegister_of_load rfl hread rfl

/-- Settles O30: a read of a halfword or a word at an address its width does not divide is Misaligned. -/
theorem misalignedLoadsDrawTheirValue : Obligations.MisalignedLoadsDrawTheirValue := fun _ _ _ _ =>
  ⟨fun h => ⟨drawsRegister_of_load (w := .half) rfl h, drawsRegister_of_load (w := .half) rfl h⟩,
    drawsRegister_of_load (w := .word) rfl⟩

/-- Settles O31: the three reserved loads run alike. -/
theorem reservedLoadsDrawTheirValue : Obligations.ReservedLoadsDrawTheirValue := by
  rintro rd rs1 imm12 s _ (rfl | rfl | rfl) <;> exact drawsRegister_of_loadReserved rfl

/-- Settles O32: every address is aligned for a byte. -/
theorem storeByteWritesOneByte : Obligations.StoreByteWritesOneByte := fun _ _ _ _ hm =>
  storesBytes_of_store (w := .byte) rfl hm (Nat.mod_one _)

/-- Settles O33, by whether the address is aligned for a halfword. -/
theorem storeHalfwordWritesTwoBytesOrNone : Obligations.StoreHalfwordWritesTwoBytesOrNone := fun _ _ _ _ =>
  ⟨storesBytes_of_store (w := .half) rfl, changesFlagsOnly_of_store (w := .half) rfl⟩

/-- Settles O34, by whether the address is aligned for a word. -/
theorem storeWordWritesFourBytesOrNone : Obligations.StoreWordWritesFourBytesOrNone := fun _ _ _ _ =>
  ⟨storesBytes_of_store (w := .word) rfl, changesFlagsOnly_of_store (w := .word) rfl⟩

/-- Settles O35: of a reserved store nothing is left but the address Add. -/
theorem reservedStoresWriteNothing : Obligations.ReservedStoresWriteNothing := fun _ _ _ _ _ =>
  ⟨changesFlagsOnly_of_storeNothing rfl, changesFlagsOnly_of_storeNothing rfl⟩

end Sys2Proof.Machine
end

section
/-! The integer operations (spec/45_integer_ops.md R131 to R150): each runs as one ALU operation over `x[rs1]` and an
immediate or `x[rs2]`, and by the operation leaves the flags of a sum, of a difference, of its result or of a comparison
(R76 to R78, R86, R87). -/

namespace Sys2Proof.Machine

/-! ### What an instruction that runs as one ALU operation leaves -/

section
variable {i : Instr} {s : State} {op : AluOp} {rd : RegIdx} {a b : Word}

/-- `WritesRegister` is `LeavesResult` and the advance of `pc` and the cycle counter. -/
theorem WritesRegister.leavesResult {value : Word} {f : Flags} (h : WritesRegister i s rd value f) :
    LeavesResult i s rd value f := by
  obtain ⟨t, hexec, hreg, hflags, hbytes, hmem, -, hown⟩ := h
  exact ⟨t, hexec, hreg, hflags, hbytes, hmem, hown⟩

theorem writesRegister_of_add (h : exec i s = .next (s.aluToReg .add rd a b)) :
    WritesRegister i s rd (a + b) (addFlags a b) :=
  aluFlags_add a b ▸ writesRegister_of_aluToReg h

theorem writesRegister_of_sub (h : exec i s = .next (s.aluToReg .sub rd a b)) :
    WritesRegister i s rd (a - b) (subFlags a b) :=
  aluFlags_sub a b ▸ writesRegister_of_aluToReg h

/-- An operation other than Add and Sub leaves its result with C = V = 0 (D8). -/
theorem writesRegister_of_result (hadd : op ≠ .add) (hsub : op ≠ .sub) (h : exec i s = .next (s.aluToReg op rd a b)) :
    WritesRegister i s rd (aluResult op a b) (resultFlags (aluResult op a b)) :=
  aluFlags_eq_resultFlags a b hadd hsub ▸ writesRegister_of_aluToReg h

theorem writesRegister_of_slt (h : exec i s = .next (s.aluToReg .slt rd a b)) :
    WritesRegister i s rd (if a.toInt < b.toInt then 1#32 else 0#32)
      ⟨decide (b.toInt ≤ a.toInt), false, false, false⟩ := by
  have hresult : aluResult .slt a b = boolWord (decide (a.toInt < b.toInt)) := rfl
  have hwrites := writesRegister_of_aluToReg h
  rwa [aluFlags_of_boolWord a b (by decide) (by decide) hresult Int.not_lt, hresult, boolWord_decide] at hwrites

theorem writesRegister_of_sltu (h : exec i s = .next (s.aluToReg .sltu rd a b)) :
    WritesRegister i s rd (if a.toNat < b.toNat then 1#32 else 0#32)
      ⟨decide (b.toNat ≤ a.toNat), false, false, false⟩ := by
  have hresult : aluResult .sltu a b = boolWord (decide (a.toNat < b.toNat)) := rfl
  have hwrites := writesRegister_of_aluToReg h
  rwa [aluFlags_of_boolWord a b (by decide) (by decide) hresult Nat.not_lt, hresult, boolWord_decide] at hwrites

/-! The bitwise operations (R79 to R81). -/

theorem writesRegister_of_xor (h : exec i s = .next (s.aluToReg .xor rd a b)) :
    WritesRegister i s rd (a ^^^ b) (resultFlags (a ^^^ b)) :=
  writesRegister_of_result (by decide) (by decide) h

theorem writesRegister_of_or (h : exec i s = .next (s.aluToReg .or rd a b)) :
    WritesRegister i s rd (a ||| b) (resultFlags (a ||| b)) :=
  writesRegister_of_result (by decide) (by decide) h

theorem writesRegister_of_and (h : exec i s = .next (s.aluToReg .and rd a b)) :
    WritesRegister i s rd (a &&& b) (resultFlags (a &&& b)) :=
  writesRegister_of_result (by decide) (by decide) h

/-! A shift by the amount that the ALU reads from its second operand (R83 to R85). -/

theorem writesRegister_of_sll {n : Nat} (hn : shiftAmount b = n) (h : exec i s = .next (s.aluToReg .sll rd a b)) :
    WritesRegister i s rd (a <<< n) (resultFlags (a <<< n)) :=
  hn ▸ writesRegister_of_result (by decide) (by decide) h

theorem writesRegister_of_srl {n : Nat} (hn : shiftAmount b = n) (h : exec i s = .next (s.aluToReg .srl rd a b)) :
    WritesRegister i s rd (a >>> n) (resultFlags (a >>> n)) :=
  hn ▸ writesRegister_of_result (by decide) (by decide) h

theorem writesRegister_of_sra {n : Nat} (hn : shiftAmount b = n) (h : exec i s = .next (s.aluToReg .sra rd a b)) :
    WritesRegister i s rd (a.sshiftRight n) (resultFlags (a.sshiftRight n)) :=
  hn ▸ writesRegister_of_result (by decide) (by decide) h

end

/-! ### The rows of ADDI, ADD and SUB (R68, R93) -/

section
variable {w : Word}

theorem decode_of_addi_row (h : w &&& 0x0000707F#32 = 0x00000013#32) :
    decode w = .addi (fieldRd w) (fieldRs1 w) (bitsI w) := by
  rw [decode_of_opImm (fieldOpcode_of_row h rfl), decodeOpImm, fieldFunct3_of_row h rfl]
  rfl

theorem decode_of_add_row (h : w &&& 0x4000707F#32 = 0x00000033#32) :
    decode w = .add (fieldRd w) (fieldRs1 w) (fieldRs2 w) (fieldFunct7 w) := by
  rw [decode_of_op (fieldOpcode_of_row h rfl), decodeOp, fieldFunct3_of_row h rfl, bit30_of_row h rfl]
  rfl

theorem decode_of_sub_row (h : w &&& 0x4000707F#32 = 0x40000033#32) :
    decode w = .sub (fieldRd w) (fieldRs1 w) (fieldRs2 w) (fieldFunct7 w) := by
  rw [decode_of_op (fieldOpcode_of_row h rfl), decodeOp, fieldFunct3_of_row h rfl, bit30_of_row h rfl]
  rfl

end

/-! ### The obligations of the family -/

/-- Settles O39: of the immediate's bits, funct7 above the shift amount, the ALU reads the shift amount alone. -/
theorem immediateShiftsUseTheShamtField : Obligations.ImmediateShiftsUseTheShamtField := by
  rintro rd rs1 funct7 shamt s _ rfl
  have hamount := shiftAmount_immI_shiftBits funct7 shamt
  exact ⟨writesRegister_of_sll hamount rfl, writesRegister_of_srl hamount rfl, writesRegister_of_sra hamount rfl⟩

/-- Settles O42: the ALU's shift amount is the second register modulo 32. -/
theorem registerShiftsAreModulo32 : Obligations.RegisterShiftsAreModulo32 := by
  rintro rd rs1 rs2 funct7 s _ _ rfl rfl
  have hamount := shiftAmount_eq (s.readReg rs2)
  exact ⟨writesRegister_of_sll hamount rfl, writesRegister_of_srl hamount rfl, writesRegister_of_sra hamount rfl⟩

/-- Settles O37: the row fixes the opcode and funct3, and the run is Add of the register and the immediate. -/
theorem addiAddsTheImmediate : Obligations.AddiAddsTheImmediate :=
  ⟨fun _ => decode_of_addi_row, fun _ _ _ _ => (writesRegister_of_add rfl).leavesResult⟩

/-- Settles O38: each runs its own comparison or bitwise operation of the register and the immediate. -/
theorem immediateComparesAndLogic : Obligations.ImmediateComparesAndLogic := by
  rintro rd rs1 imm12 s _ _ rfl rfl
  exact ⟨writesRegister_of_slt rfl, writesRegister_of_sltu rfl, writesRegister_of_xor rfl, writesRegister_of_or rfl,
    writesRegister_of_and rfl⟩

/-- Settles O40: the row fixes the opcode, funct3 and instr[30], and the run is Add of the two registers. -/
theorem addAddsTheRegisters : Obligations.AddAddsTheRegisters :=
  ⟨fun _ => decode_of_add_row, fun _ _ _ _ _ => (writesRegister_of_add rfl).leavesResult⟩

/-- Settles O41: the row fixes the opcode, funct3 and instr[30], and the run is Sub of the two registers. -/
theorem subSubtractsTheRegisters : Obligations.SubSubtractsTheRegisters :=
  ⟨fun _ => decode_of_sub_row, fun _ _ _ _ _ => writesRegister_of_sub rfl⟩

/-- Settles O43: each runs its own comparison or bitwise operation of the two registers. -/
theorem registerComparesAndLogic : Obligations.RegisterComparesAndLogic := by
  rintro rd rs1 rs2 funct7 s _ _ rfl rfl
  exact ⟨writesRegister_of_slt rfl, writesRegister_of_sltu rfl, writesRegister_of_xor rfl, writesRegister_of_or rfl,
    writesRegister_of_and rfl⟩

end Sys2Proof.Machine
end

section
/-! SYSTEM, MISC-MEM and unrecognized words (spec/46_system_unrecognized.md R151 to R155): each runs as the inert
default of the register its rs1 field names. -/

namespace Sys2Proof.Machine

theorem resultFlags_zero : resultFlags 0#32 = ⟨true, false, false, false⟩ := rfl

section
variable {s : State}

/-- An instruction that runs as the inert default leaves the flags of PassA, whose C and V are 0 (D8). -/
theorem changesFlagsOnly_of_inert {i : Instr} {rs1 rs2 : RegIdx} (h : exec i s = .next (s.inert rs1 rs2)) :
    ChangesFlagsOnly i s (resultFlags (s.readReg rs1)) := by
  have hflags : (s.inert rs1 rs2).flags = resultFlags (s.readReg rs1) :=
    aluFlags_eq_resultFlags (op := .passA) _ (s.readReg rs2) (by decide) (by decide)
  exact ⟨_, h, inert_readReg s rs1 rs2, hflags, fun _ => rfl, inert_mem .., ⟨inert_pc .., inert_cycleCount ..⟩,
    inert_memSize .., rfl⟩

/-- ECALL and EBREAK name register 0, so their flags are those of the value 0 (R152, R153). -/
theorem changesFlagsOnly_of_inert_zero {i : Instr} {rs2 : RegIdx} (h : exec i s = .next (s.inert 0#5 rs2)) :
    ChangesFlagsOnly i s ⟨true, false, false, false⟩ := by
  have hz := changesFlagsOnly_of_inert h
  rwa [readReg_zero, resultFlags_zero] at hz

/-- MISC-MEM runs as the words without a row of their own do (R154, R155). -/
theorem exec_decode_of_unlisted {w : Word} (ho : fieldOpcode w ∉ listedOpcodes) :
    exec (decode w) s = .next (s.inert (fieldRs1 w) (fieldRs2 w)) := by
  obtain ⟨-, hw | ⟨-, hw⟩⟩ := (decodeRow w).inert_of_unlisted ho
  · rw [hw]; rfl
  · rw [hw, ← bitsI_low_bits]; rfl

end

/-- Settles O45: each SYSTEM instruction, and each word the decoder maps to one, runs as the inert default. -/
theorem systemWordsAreNoOps : Obligations.SystemWordsAreNoOps := by
  refine ⟨fun _ => changesFlagsOnly_of_inert_zero rfl, fun _ => changesFlagsOnly_of_inert_zero rfl,
    fun _ _ _ _ _ => changesFlagsOnly_of_inert rfl, fun w s ho => ?_⟩
  rw [decode_of_system ho]
  exact changesFlagsOnly_of_inert (exec_decodeSystem w s)

/-- Settles O46: MISC-MEM and UNRECOGNIZED, the only instructions of a word outside the ten opcodes, run as the inert
default. -/
theorem unlistedOpcodesAreNoOps : Obligations.UnlistedOpcodesAreNoOps :=
  ⟨fun _ _ _ _ _ => changesFlagsOnly_of_inert rfl, fun _ _ => changesFlagsOnly_of_inert rfl,
    fun _ _ ho => changesFlagsOnly_of_inert (exec_decode_of_unlisted ho)⟩

end Sys2Proof.Machine
end

section
/-! No exceptions (spec/60_exceptions.md R156): a cycle of one of the eight shapes is all an instruction answers. -/

namespace Sys2Proof.Machine

/-- An outcome that is a next state equals exactly the outcomes that are that next state. -/
theorem eq_iff_eq_next {x : Host.Outcome State Fault Refusal} {t : State} (h : x = .next t)
    (o : Host.Outcome State Fault Refusal) : x = o ↔ o = .next t := by
  rw [h, eq_comm]

/-- An instruction answers no fault. -/
theorem exec_ne_fault (i : Instr) (s : State) (f : Fault) : exec i s ≠ .fault f := by
  obtain ⟨t, hnext, -⟩ := exec_eq_next_cycle i s
  rw [hnext]
  exact nofun

/-- An instruction answers no refusal. -/
theorem exec_ne_refused (i : Instr) (s : State) (r : Refusal) : exec i s ≠ .refused r := by
  obtain ⟨t, hnext, -⟩ := exec_eq_next_cycle i s
  rw [hnext]
  exact nofun

/-- Settles O16: every instruction, and so every step, answers the next state of a cycle of one of the eight shapes,
which is no fault and no refusal. -/
theorem everyInstructionAndStepCompletes : Obligations.EveryInstructionAndStepCompletes := by
  refine ⟨fun i s => ?_, fun s => ?_, fun i s f r => ⟨exec_ne_fault i s f, exec_ne_refused i s r⟩⟩
  · obtain ⟨t, hnext, -⟩ := exec_eq_next_cycle i s
    exact ⟨t, eq_iff_eq_next hnext⟩
  · obtain ⟨t, hnext, -⟩ := step_eq_next s
    exact ⟨t, eq_iff_eq_next hnext⟩

end Sys2Proof.Machine
end

section
/-! The host between cycles (spec/70_reset_and_hazards.md R171 to R178): what each command does to the state, the state
after reset and after construction, and that every command keeps the invariant. -/

namespace Sys2Proof.Machine

/-! ### The mask of every `pc` write (R24, R98) -/

theorem alignPc_high_bits (v : Word) : (alignPc v).extractLsb' 2 30 = v.extractLsb' 2 30 := by
  have hmask : (~~~3#32).extractLsb' 2 30 = BitVec.allOnes 30 := rfl
  rw [alignPc, BitVec.extractLsb'_and, hmask, BitVec.and_allOnes]

/-- The masked value is the greatest multiple of 4 that is not above the value. -/
theorem alignPc_toNat (v : Word) : (alignPc v).toNat = v.toNat / 4 * 4 := by
  have hlow := alignPc_toNat_mod_four v
  have hhigh := congrArg BitVec.toNat (alignPc_high_bits v)
  simp only [BitVec.extractLsb'_toNat, Nat.shiftRight_eq_div_pow] at hhigh
  omega

/-- The mask changes no address that is a multiple of 4. -/
theorem alignPc_of_aligned {v : Word} (h : v.toNat % 4 = 0) : alignPc v = v := by
  apply BitVec.eq_of_toNat_eq
  rw [alignPc_toNat]
  omega

/-! ### Every command keeps the invariant and the configuration (R175) -/

/-- A masked `pc` write that leaves memory and its size keeps the invariant (R171, R176). -/
theorem wf_of_alignPc {s t : State} {v : Word} (hs : s.wf = true) (hpc : t.pc = alignPc v) (hmem : t.mem = s.mem)
    (hsize : t.memSize = s.memSize) : t.wf = true := by
  rw [State.wf_iff] at hs ⊢
  obtain ⟨-, hcells⟩ := hs
  rw [hpc, hmem, hsize]
  exact ⟨alignPc_low_bits v, hcells⟩

theorem memWrite_keeps_wf {s : State} (w : Width) (a v : Word) (hs : s.wf = true) : (s.memWrite w a v).wf = true := by
  rw [State.wf_iff] at hs ⊢
  obtain ⟨hpc, hwf, hbelow⟩ := hs
  rw [memWrite_pc, memWrite_memSize]
  exact ⟨hpc, memWrite_mem_wf s w a v hwf, memWrite_mem_below s w a v hbelow⟩

/-- The first entry of a program is a word write of the data port, skipped when misaligned as that write is (R45). -/
theorem loadProgram_cons (s : State) (e : Word × Word) (es : List (Word × Word)) :
    loadProgram s (e :: es) = loadProgram (s.memWrite .word e.1 e.2) es := rfl

theorem loadProgram_keeps_wf_and_memSize {s : State} (es : List (Word × Word)) (hs : s.wf = true) :
    (loadProgram s es).wf = true ∧ (loadProgram s es).memSize = s.memSize := by
  induction es generalizing s with
  | nil => exact ⟨hs, rfl⟩
  | cons e es ih =>
    obtain ⟨hwf, hsize⟩ := ih (memWrite_keeps_wf .word e.1 e.2 hs)
    rw [loadProgram_cons]
    exact ⟨hwf, hsize.trans (memWrite_memSize ..)⟩

theorem step_keeps_wf_and_memSize {s t : State} (hs : s.wf = true) (h : step s = .next t) :
    t.wf = true ∧ t.memSize = s.memSize :=
  ⟨stepKeepsTheInvariant s t hs h, (cycle_of_exec h).memSize_eq⟩

/-- A run keeps what each of its steps keeps. -/
theorem runCycles_keeps_wf_and_memSize {n : Nat} {s t : State} (hs : s.wf = true) (h : runCycles n s = .next t) :
    t.wf = true ∧ t.memSize = s.memSize := by
  induction n generalizing s with
  | zero =>
    cases h
    exact ⟨hs, rfl⟩
  | succ n ih =>
    obtain ⟨u, hstep, -⟩ := step_eq_next s
    obtain ⟨hu, hsize⟩ := step_keeps_wf_and_memSize hs hstep
    rw [runCycles_succ hstep] at h
    obtain ⟨ht, hsize'⟩ := ih hu h
    exact ⟨ht, hsize'.trans hsize⟩

/-- Settles O49: `clock` is a step, `run_cycles` a run of steps, `load_program` a list of word writes, and `reset` and
`set_pc` write a masked `pc` and no memory. -/
theorem hostCommandsKeepTheInvariant : Obligations.HostCommandsKeepTheInvariant := by
  intro command s t hs h
  cases command with
  | clock => exact step_keeps_wf_and_memSize hs h
  | runCycles n => exact runCycles_keeps_wf_and_memSize hs h
  | reset =>
    cases h
    exact ⟨wf_of_alignPc hs rfl rfl rfl, rfl⟩
  | loadProgram es =>
    cases h
    exact loadProgram_keeps_wf_and_memSize es hs
  | setPc v =>
    cases h
    exact ⟨wf_of_alignPc hs rfl rfl rfl, rfl⟩

/-! ### `set_pc` and `reset` (R171, R176) -/

/-- Settles O57: the new `pc` is the masked one, and no other field is written. -/
theorem hostSetPcMasksAndChangesNothingElse : Obligations.HostSetPcMasksAndChangesNothingElse :=
  fun _ v => ⟨rfl, alignPc_toNat v, rfl⟩

theorem hostReset_readReg (s : State) (r : RegIdx) : (hostReset s).readReg r = 0#32 := by
  rw [State.readReg]
  split
  · rfl
  · exact Vector.getElem_replicate ..

/-- Settles O55: every register reads 0, and the rest is what `reset` writes and leaves. -/
theorem hostResetZeroesAllButMemory : Obligations.HostResetZeroesAllButMemory :=
  fun s => ⟨rfl, rfl, hostReset_readReg s, rfl, rfl, rfl, fun _ => rfl, rfl⟩

/-! ### The state after construction (R172, R173) -/

theorem hostReset_reset : hostReset State.reset = State.reset := rfl

theorem readWord_empty (i : Nat) : Memory.readWord Memory.empty i = 0#32 :=
  show wordOfBytes 0#8 0#8 0#8 0#8 = 0#32 by decide

/-- Settles O56: the constructed state is its own reset, so it reads as a reset state does, and its memory lists
nothing. -/
theorem constructedStateIsReset : Obligations.ConstructedStateIsReset :=
  ⟨hostReset_reset, rfl, fun r => hostReset_reset ▸ hostReset_readReg State.reset r, rfl, rfl,
    fun _ => ⟨rfl, readWord_empty _⟩⟩

/-- Settles O48: `pc` 0 is a multiple of 4, and memory that lists nothing is canonical and within its size. -/
theorem constructedStateHasTheInvariant : Obligations.ConstructedStateHasTheInvariant :=
  (State.wf_iff State.reset).mpr ⟨rfl, rfl, rfl⟩

/-! ### The self-loop (R178) -/

theorem decode_self_loop : decode 0x0000006F#32 = .jal 0#5 0#20 := decode_of_jal rfl

/-- A jump that links into register 0 only sets the flags and goes to its target (R20). -/
theorem linkAndJump_zero (s : State) (a b target : Word) :
    s.linkAndJump 0#5 a b target = (s.setFlags (aluFlags .add a b)).jumpTo target := rfl

/-- `jal x0, 0` links nothing, shows x0 to both read ports and targets its own `pc` (R106). -/
theorem exec_self_loop (s : State) :
    exec (.jal 0#5 0#20) s = .next ((s.setFlags ⟨true, false, false, false⟩).jumpTo s.pc) := by
  have hport1 : jalPort1 0#20 = 0#5 := rfl
  have hport2 : jalPort2 0#20 = 0#5 := rfl
  have hflags : aluFlags .add 0#32 0#32 = ⟨true, false, false, false⟩ := by decide
  have htarget : s.pc + immJ 0#20 = s.pc := BitVec.add_zero s.pc
  rw [exec_jal, linkAndJump_zero, hport1, hport2, readReg_zero, hflags, htarget]

/-- Settles O54: the flags written are those already held, and the masked target is the `pc` already held. -/
theorem selfLoopChangesOnlyTheCycleCount : Obligations.SelfLoopChangesOnlyTheCycleCount := by
  intro s hfetch haligned hflags
  have hstay : (s.setFlags ⟨true, false, false, false⟩).jumpTo s.pc =
      { s with cycleCount := s.cycleCount + 1#64 } := by
    rw [State.jumpTo, State.updatePc, if_pos rfl, alignPc_of_aligned haligned, ← hflags]
    rfl
  rw [step, hfetch, decode_self_loop, exec_self_loop, hstay]

end Sys2Proof.Machine
end

section
/-! The example words that the spec writes out beside their assembly text (spec/42 to spec/46, R104 to R154). -/

namespace Sys2Proof

/-- Settles O6: fourteen fixed words, each decoded by evaluation. -/
theorem specExampleWordsDecode : Obligations.SpecExampleWordsDecode := by
  unfold Obligations.SpecExampleWordsDecode
  decide

end Sys2Proof
end
